-- ==== Sys2Proof/Word.lean ====
section
/-! DEFINITION. The machine's word types: a 32-bit datapath (rule R8), 8-bit memory bytes (R26) and
register indices 0 to 31 (R20). -/

namespace Sys2Proof

/-- A register value, address, immediate, instruction word or program counter (R8, R10). -/
abbrev Word := BitVec 32

/-- One byte of data memory (R26). -/
abbrev Byte := BitVec 8

/-- The index of a general register, `x[0]` to `x[31]` (R20); all 32 are legal everywhere (R23). -/
abbrev RegIdx := Fin 32

end Sys2Proof
end

