-- ==== Sys2Proof/Syntax.lean ====
section
/-! DEFINITION. The instruction set: one constructor per row of spec/opcode_table.json (rules R2, R71). -/

namespace Sys2Proof

/-- The nine instructions. An immediate is the 32-bit sign-extended value the instruction uses (R66 to
R68), a branch offset the signed byte offset itself (R75); `WellFormed` says which values an encoding
holds (log 21). -/
inductive Instr where
  /-- `add rd, rs1, rs2` (R102) -/
  | add (rd rs1 rs2 : RegIdx)
  /-- `sub rd, rs1, rs2` (R103) -/
  | sub (rd rs1 rs2 : RegIdx)
  /-- `and rd, rs1, rs2` (R104) -/
  | and (rd rs1 rs2 : RegIdx)
  /-- `or rd, rs1, rs2` (R105) -/
  | or (rd rs1 rs2 : RegIdx)
  /-- `addi rd, rs1, imm` (R106) -/
  | addi (rd rs1 : RegIdx) (imm : Word)
  /-- `lw rd, imm(rs1)` (R122) -/
  | lw (rd rs1 : RegIdx) (imm : Word)
  /-- `sw rs2, imm(rs1)` (R123) -/
  | sw (rs2 rs1 : RegIdx) (imm : Word)
  /-- `beq rs1, rs2, offset` (R133) -/
  | beq (rs1 rs2 : RegIdx) (offset : Word)
  /-- `bne rs1, rs2, offset` (R134) -/
  | bne (rs1 rs2 : RegIdx) (offset : Word)
deriving DecidableEq, Repr

end Sys2Proof
end

