-- ==== Sys2Proof/WellFormed.lean ====
section
/-! DEFINITION. Which instruction terms an encoding can hold: the operand constraints of rule R75. -/

namespace Sys2Proof

/-- R75 for `addi`, `lw`, `sw`: `-2048 <= imm <= 2047` (the range of immI and immS, R66, R67). -/
abbrev fitsImm12 (imm : Word) : Prop :=
  -2048 ≤ imm.toInt ∧ imm.toInt ≤ 2047

/-- R75 for `beq`, `bne`: the offset is even and `-4096 <= offset <= 4094` (the range of immB, R68). -/
abbrev fitsBranchOffset (offset : Word) : Prop :=
  -4096 ≤ offset.toInt ∧ offset.toInt ≤ 4094 ∧ offset.getLsbD 0 = false

/-- The operand constraints of an instruction (R75); every register index is legal (R74). -/
abbrev Instr.WellFormed : Instr → Prop
  | .add _ _ _ => True
  | .sub _ _ _ => True
  | .and _ _ _ => True
  | .or _ _ _ => True
  | .addi _ _ imm => fitsImm12 imm
  | .lw _ _ imm => fitsImm12 imm
  | .sw _ _ imm => fitsImm12 imm
  | .beq _ _ offset => fitsBranchOffset offset
  | .bne _ _ offset => fitsBranchOffset offset

end Sys2Proof
end

