-- ==== Sys2Proof/Decode.lean ====
section
/-! DEFINITION. The instruction decoder and the control unit's classification (spec 30_encoding.md and
40_decode_control.md), and after them an encoder written from the same format tables. -/

namespace Sys2Proof

/-! ## The decoder block -/

/-- The nine values `decode(instr)` returns (R80). -/
structure Fields where
  opcode : BitVec 7
  rd : RegIdx
  funct3 : BitVec 3
  rs1 : RegIdx
  rs2 : RegIdx
  funct7 : BitVec 7
  immI : Word
  immS : Word
  immB : Word
deriving DecidableEq, Repr

/-- The register a 5-bit field names (R61). -/
def regOfBits (b : BitVec 5) : RegIdx := ⟨b.toNat, b.isLt⟩

/-- The 5-bit field that names a register (R61). -/
def bitsOfReg (r : RegIdx) : BitVec 5 := BitVec.ofNat 5 r.val

/-- `instr[6:0]` (R61). -/
def opcodeField (w : Word) : BitVec 7 := w.extractLsb' 0 7
/-- `instr[11:7]` (R61). -/
def rdField (w : Word) : BitVec 5 := w.extractLsb' 7 5
/-- `instr[14:12]` (R61). -/
def funct3Field (w : Word) : BitVec 3 := w.extractLsb' 12 3
/-- `instr[19:15]` (R61). -/
def rs1Field (w : Word) : BitVec 5 := w.extractLsb' 15 5
/-- `instr[24:20]` (R61). -/
def rs2Field (w : Word) : BitVec 5 := w.extractLsb' 20 5
/-- `instr[31:25]` (R61). -/
def funct7Field (w : Word) : BitVec 7 := w.extractLsb' 25 7

/-- `immI = sext_32(instr[31:20])` (R66). -/
def immIOf (w : Word) : Word := (w.extractLsb' 20 12).signExtend 32

/-- `immS = sext_32(instr[31:25] ++ instr[11:7])` (R67). -/
def immSOf (w : Word) : Word :=
  (w.extractLsb' 25 7 ++ w.extractLsb' 7 5 : BitVec 12).signExtend 32

/-- `immB = sext_32(instr[31] ++ instr[7] ++ instr[30:25] ++ instr[11:8] ++ 0b0)` (R68). -/
def immBOf (w : Word) : Word :=
  (w.extractLsb' 31 1 ++ w.extractLsb' 7 1 ++ w.extractLsb' 25 6 ++ w.extractLsb' 8 4 ++ 0#1
    : BitVec 13).signExtend 32

/-- The decoder block (R80, R81): total, pure, every field and immediate of any word. -/
def decodeFields (w : Word) : Fields where
  opcode := opcodeField w
  rd := regOfBits (rdField w)
  funct3 := funct3Field w
  rs1 := regOfBits (rs1Field w)
  rs2 := regOfBits (rs2Field w)
  funct7 := funct7Field w
  immI := immIOf w
  immS := immSOf w
  immB := immBOf w

/-! ## The control unit's classification -/

/-- The ALU's whole operation set (R100). -/
inductive AluOp where
  | add | sub | and | or
deriving DecidableEq, Repr

/-- The six kinds of R84; `rtype` carries its operation. -/
inductive Kind where
  | rtype (op : AluOp)
  | addi | lw | sw | beq | bne
deriving DecidableEq, Repr

/-- Why a word is unsupported: the six classes of R72. -/
inductive Reject where
  /-- R72 (a): the opcode is none of the five. -/
  | opcode
  /-- R72 (b): opcode 0x33 with another pair of funct3 and funct7. -/
  | rtypeFunct
  /-- R72 (c): opcode 0x13 with funct3 other than 0. -/
  | addiFunct3
  /-- R72 (d): opcode 0x03 with funct3 other than 2. -/
  | lwFunct3
  /-- R72 (e): opcode 0x23 with funct3 other than 2. -/
  | swFunct3
  /-- R72 (f): opcode 0x63 with funct3 of 2 to 7. -/
  | branchFunct3
deriving DecidableEq, Repr

/-- The classification of R83, in its order of tests; `funct7` counts only under opcode 0x33.
beq is funct3 0 and bne funct3 1 (R70; PRESUMED by the spec from general knowledge, log 12). -/
def classify (opcode : BitVec 7) (funct3 : BitVec 3) (funct7 : BitVec 7) : Except Reject Kind :=
  if opcode = 0x33#7 then
    if funct3 = 0#3 ∧ funct7 = 0x00#7 then .ok (.rtype .add)
    else if funct3 = 0#3 ∧ funct7 = 0x20#7 then .ok (.rtype .sub)
    else if funct3 = 7#3 ∧ funct7 = 0x00#7 then .ok (.rtype .and)
    else if funct3 = 6#3 ∧ funct7 = 0x00#7 then .ok (.rtype .or)
    else .error .rtypeFunct
  else if opcode = 0x13#7 then
    if funct3 = 0#3 then .ok .addi else .error .addiFunct3
  else if opcode = 0x03#7 then
    if funct3 = 2#3 then .ok .lw else .error .lwFunct3
  else if opcode = 0x23#7 then
    if funct3 = 2#3 then .ok .sw else .error .swFunct3
  else if opcode = 0x63#7 then
    if funct3 = 0#3 then .ok .beq
    else if funct3 = 1#3 then .ok .bne
    else .error .branchFunct3
  else .error .opcode

/-- The instruction of a kind with the operands its format names (R62 to R65, R69). -/
def assemble (k : Kind) (f : Fields) : Instr :=
  match k with
  | .rtype .add => .add f.rd f.rs1 f.rs2
  | .rtype .sub => .sub f.rd f.rs1 f.rs2
  | .rtype .and => .and f.rd f.rs1 f.rs2
  | .rtype .or => .or f.rd f.rs1 f.rs2
  | .addi => .addi f.rd f.rs1 f.immI
  | .lw => .lw f.rd f.rs1 f.immI
  | .sw => .sw f.rs2 f.rs1 f.immS
  | .beq => .beq f.rs1 f.rs2 f.immB
  | .bne => .bne f.rs1 f.rs2 f.immB

/-- The instruction a word is, or the class of R72 it is rejected under. -/
def decode (w : Word) : Except Reject Instr :=
  match classify (decodeFields w).opcode (decodeFields w).funct3 (decodeFields w).funct7 with
  | .ok k => .ok (assemble k (decodeFields w))
  | .error e => .error e

/-- What the decoder reads from an instruction whose bits are `w`, bit 0 the least significant (the
host's numbering is R9's). Instruction memory is word-indexed and has no byte order (R43), so the bits
are the word; bits at and above `nbits` are 0. -/
def decodeTableWord (nbits w : Nat) : Option Instr :=
  match decode (BitVec.ofNat 32 (w % 2 ^ nbits)) with
  | .ok i => some i
  | .error _ => none

/-! ## The encoder -/

/-- Format R (R62). -/
def encodeR (funct7 : BitVec 7) (rs2 rs1 : RegIdx) (funct3 : BitVec 3) (rd : RegIdx)
    (opcode : BitVec 7) : Word :=
  funct7 ++ bitsOfReg rs2 ++ bitsOfReg rs1 ++ funct3 ++ bitsOfReg rd ++ opcode

/-- Format I (R63). -/
def encodeI (imm : Word) (rs1 : RegIdx) (funct3 : BitVec 3) (rd : RegIdx) (opcode : BitVec 7) :
    Word :=
  imm.extractLsb' 0 12 ++ bitsOfReg rs1 ++ funct3 ++ bitsOfReg rd ++ opcode

/-- Format S (R64). -/
def encodeS (imm : Word) (rs2 rs1 : RegIdx) (funct3 : BitVec 3) (opcode : BitVec 7) : Word :=
  imm.extractLsb' 5 7 ++ bitsOfReg rs2 ++ bitsOfReg rs1 ++ funct3 ++ imm.extractLsb' 0 5 ++ opcode

/-- Format B (R65); `imm[0]` is not encoded. -/
def encodeB (imm : Word) (rs2 rs1 : RegIdx) (funct3 : BitVec 3) (opcode : BitVec 7) : Word :=
  imm.extractLsb' 12 1 ++ imm.extractLsb' 5 6 ++ bitsOfReg rs2 ++ bitsOfReg rs1 ++ funct3
    ++ imm.extractLsb' 1 4 ++ imm.extractLsb' 11 1 ++ opcode

/-- The word of a well-formed instruction, from the rows of R71; outside `WellFormed` the immediate's
bits that the format does not hold are dropped (log 21). -/
def encode : Instr → Word
  | .add rd rs1 rs2 => encodeR 0x00#7 rs2 rs1 0#3 rd 0x33#7
  | .sub rd rs1 rs2 => encodeR 0x20#7 rs2 rs1 0#3 rd 0x33#7
  | .and rd rs1 rs2 => encodeR 0x00#7 rs2 rs1 7#3 rd 0x33#7
  | .or rd rs1 rs2 => encodeR 0x00#7 rs2 rs1 6#3 rd 0x33#7
  | .addi rd rs1 imm => encodeI imm rs1 0#3 rd 0x13#7
  | .lw rd rs1 imm => encodeI imm rs1 2#3 rd 0x03#7
  | .sw rs2 rs1 imm => encodeS imm rs2 rs1 2#3 0x23#7
  | .beq rs1 rs2 offset => encodeB offset rs2 rs1 0#3 0x63#7
  | .bne rs1 rs2 offset => encodeB offset rs2 rs1 1#3 0x63#7

end Sys2Proof
end

