-- ==== Sys2Proof/Config.lean ====
section
/-! DEFINITION. What an implementation fixes: the three "argument" parameters of rule R8, and the one
thing the spec leaves uninterpreted, the loader's white space (R183, N25). -/

namespace Sys2Proof

/-- The parameters rule R8 marks "argument", each with its default. The fixed ones (XLEN, NREGS, ILEN,
PCLEN, little-endian byte order, no strict alignment) are built into the types and operations.
Log 1: the machine carries its configuration unchanged in `Machine.State.cfg`. -/
structure Config where
  /-- `DMEM_BYTES`, capacity of data memory (R8, D2). -/
  dmemBytes : Nat := 4096
  /-- `CLEAR_DMEM_ON_LOAD`, whether a program load zeroes data memory (R8, R27, D3). -/
  clearDmemOnLoad : Bool := false
  /-- `IMEM_WORDS_MAX`, the largest program (R8, D9). -/
  imemWordsMax : Nat := 2 ^ 30
deriving DecidableEq, Repr

/-- The constraints of R8: `4 <= DMEM_BYTES <= 2^30`; and `IMEM_WORDS_MAX` at most its default `2^30`,
so that every word's offset fits the 32-bit `pc` (D9, N10). -/
abbrev Config.Valid (c : Config) : Prop :=
  4 ≤ c.dmemBytes ∧ c.dmemBytes ≤ 2 ^ 30 ∧ c.imemWordsMax ≤ 2 ^ 30

/-- FREE VALUE (log 15): which characters other than the digits `0` and `1` the loader's trimming takes
for white space. R183: "what counts as white space is the loader's and not specified". No body. -/
opaque Config.loaderSpace : Char → Bool

end Sys2Proof
end

