-- ==== Sys2Proof/Machine/State.lean ====
section
/-! DEFINITION. The machine's state as plain data (spec 10_state.md), the reasons a step stops, and the
state after power-on (R180). -/

namespace Sys2Proof.Machine

/-- The nine control flags of R30, in its order; a flag not named is false (R85 "all unlisted flags
false"; for the cells printed "—" this is the spec's decision D7, log 8). -/
structure ControlSignals where
  regDst : Bool := false
  regWrite : Bool := false
  branch : Bool := false
  memToReg : Bool := false
  memRead : Bool := false
  memWrite : Bool := false
  aluSrc : Bool := false
  aluOp1 : Bool := false
  aluOp0 : Bool := false
deriving DecidableEq, Repr

/-- The halt latch's four values (R32, R160). -/
inductive HaltCause where
  /-- Nothing has been raised. -/
  | none
  /-- Raised by a fetched word that is none of the nine instructions (R162). -/
  | unsupportedInstruction
  /-- Raised by `lw`, `sw` with a 4-byte span outside data memory (R163). -/
  | invalidMemoryAddress
  /-- Raised by a taken `beq`, `bne` to a target that is not a multiple of 4 (R164, D8). -/
  | misalignedBranchTarget
deriving DecidableEq, Repr

/-- Data memory: its bytes that differ from the reset byte, addresses strictly rising (log 18). -/
abbrev Memory := List Host.Cell

/-- What an unlisted address reads as: data memory is zero-initialised (R27). -/
def unlistedByte : Byte := 0#8

/-- Everything the spec gives the machine (10_state.md's table), and its configuration (R8). -/
structure State where
  /-- The parameters of R8, never changed (log 1). -/
  cfg : Config
  /-- `x[0]` to `x[31]` (R20); cell 0 is never written and never read (R21, R22, log 6). -/
  regs : Vector Word 32
  /-- The program counter, a byte offset into instruction memory (R24). -/
  pc : Word
  /-- Data memory `DMEM` (R26). -/
  dmem : Memory
  /-- Instruction memory `IMEM`, a sequence of words; `N` is its length (R28, log 19). -/
  imem : List Word
  /-- The control-signal snapshot of the most recent cycle (R30). -/
  ctrl : ControlSignals
  /-- The halt latch (R32). -/
  haltCause : HaltCause
deriving DecidableEq, Repr

/-- Why a step stops outside the spec. The spec's own faults are halts, which are NEXT states with the
latch set (R161, log 4). -/
inductive Fault where
  /-- Raised by the fetch of a Ready engine whose `pc` is not a multiple of 4: a state the data model
  excludes (R24, R36) and no run reaches, whose fetch the spec gives no meaning (R135). Safe (log 5). -/
  | unalignedPc
deriving DecidableEq, Repr

/-- What the machine declines. -/
inductive Refusal where
  /-- An instruction with no meaning yet, by its mnemonic; raised by `exec`'s arms only. Safe. -/
  | notModelled (mnemonic : String)
  /-- Raised by the host event `load` given more than `IMEM_WORDS_MAX` words, which is no input of R182.
  No step raises it. Safe (log 16). -/
  | programTooLong
deriving DecidableEq, Repr

/-- The state after power-on (R180, R181): everything 0, no program, latch clear. -/
def State.powerOn (c : Config) : State where
  cfg := c
  regs := Vector.replicate 32 0#32
  pc := 0#32
  dmem := []
  imem := []
  ctrl := {}
  haltCause := .none

/-- The machine right after reset: power-on with R8's default parameters. The engine is then Halted
until a program is loaded (R29, R180; log 3). -/
def State.reset : State := State.powerOn {}

end Sys2Proof.Machine
end

