-- ==== Sys2Proof/Machine/Flags.lean ====
section
/-! DEFINITION. The nine control flags of each kind (R85) and the control unit (R82). The hardware has no
arithmetic status flags (R34). -/

namespace Sys2Proof.Machine

/-- The table of R85. The `RegDst` and `MemToReg` of `sw` and the branches are the spec's decision D7
(R86, log 8). -/
def controlFlags : Kind → ControlSignals
  | .rtype _ => { regDst := true, regWrite := true, aluOp1 := true }
  | .addi => { regDst := true, regWrite := true, aluSrc := true }
  | .lw => { regDst := true, regWrite := true, memToReg := true, memRead := true, aluSrc := true }
  | .sw => { memWrite := true, aluSrc := true }
  | .beq => { branch := true, aluOp0 := true }
  | .bne => { branch := true, aluOp0 := true }

/-- The control unit: a kind and its flags, or a rejection (R82, R87). -/
def controlUnit (opcode : BitVec 7) (funct3 : BitVec 3) (funct7 : BitVec 7) :
    Except Reject (Kind × ControlSignals) :=
  match classify opcode funct3 funct7 with
  | .ok k => .ok (k, controlFlags k)
  | .error e => .error e

/-- The kind of an instruction (R84). -/
def kindOf : Instr → Kind
  | .add _ _ _ => .rtype .add
  | .sub _ _ _ => .rtype .sub
  | .and _ _ _ => .rtype .and
  | .or _ _ _ => .rtype .or
  | .addi _ _ _ => .addi
  | .lw _ _ _ => .lw
  | .sw _ _ _ => .sw
  | .beq _ _ _ => .beq
  | .bne _ _ _ => .bne

/-- The snapshot as the 9-bit string of R30, `RegDst` first. -/
def ctrlBits (c : ControlSignals) : BitVec 9 :=
  BitVec.ofBool c.regDst ++ BitVec.ofBool c.regWrite ++ BitVec.ofBool c.branch
    ++ BitVec.ofBool c.memToReg ++ BitVec.ofBool c.memRead ++ BitVec.ofBool c.memWrite
    ++ BitVec.ofBool c.aluSrc ++ BitVec.ofBool c.aluOp1 ++ BitVec.ofBool c.aluOp0

end Sys2Proof.Machine
end

