-- ==== Sys2Proof/Machine/Ops.lean ====
section
/-! DEFINITION. The named operations over registers, program counter, data memory, instruction memory
and the halt latch (spec 10_state.md, 20_memory.md, 44_cycle_engine.md, 60_exceptions.md), raising a
fault among them, and the program load that is the only way out of Halted. -/

namespace Sys2Proof.Machine

/-! ## Register file with zero guard -/

/-- Read port: index 0 always reads 0 (R21). -/
def readReg (s : State) (i : RegIdx) : Word :=
  if i = 0 then 0#32 else s.regs[i.val]

/-- Write port: a write to index 0 changes nothing (R22). -/
def writeReg (s : State) (i : RegIdx) (v : Word) : State :=
  if i = 0 then s else { s with regs := s.regs.set i.val v }

/-! ## Program counter, control snapshot, halt latch -/

/-- `pc <- t` (R12). -/
def setPc (s : State) (t : Word) : State := { s with pc := t }

/-- `pc <- pc + 4`, modulo 2^32 (R25). -/
def advance (s : State) : State := setPc s (s.pc + 4#32)

/-- `ctrl <- f` (R30). -/
def setCtrl (s : State) (f : ControlSignals) : State := { s with ctrl := f }

/-- `raise <Cause>` (R161), applied to the state of before the step, with `ctrl` as the cause's rule
says: the cause is latched and nothing else changes. -/
def raise (s : State) (c : HaltCause) : State := { s with haltCause := c }

/-- The numeric codes of R160. -/
def haltCode : HaltCause → Nat
  | .none => 0
  | .unsupportedInstruction => 1
  | .invalidMemoryAddress => 2
  | .misalignedBranchTarget => 3

/-- The latch holds a cause, or the `pc` is at or beyond the end of the program (R141). -/
def halted (s : State) : Bool :=
  s.haltCause != .none || decide (s.imem.length ≤ s.pc.toNat / 4)

/-- `v[1:0] = 0`: a multiple of 4 (R24, R135). -/
def aligned (v : Word) : Bool := v.extractLsb' 0 2 == 0#2

/-- The word at index `pc / 4` of instruction memory, when there is one (R142). -/
def fetch (s : State) : Option Word := s.imem[s.pc.toNat / 4]?

/-! ## Bytes of data memory -/

/-- The byte at an address (R26); an unlisted one reads its reset value (R27). -/
def Memory.read : Memory → Nat → Byte
  | [], _ => unlistedByte
  | (k, b) :: m, a => if k = a then b else Memory.read m a

/-- The byte at one address replaced, in canonical form: an entry equal to the unlisted byte is not
kept. -/
def Memory.write : Memory → Nat → Byte → Memory
  | [], a, v => if v = unlistedByte then [] else [(a, v)]
  | (k, b) :: m, a, v =>
    if a < k then (if v = unlistedByte then (k, b) :: m else (a, v) :: (k, b) :: m)
    else if a = k then (if v = unlistedByte then m else (a, v) :: m)
    else (k, b) :: Memory.write m a v

/-- The canonical form: addresses strictly rising, no entry equal to the unlisted byte. -/
def Memory.wf : Memory → Bool
  | [] => true
  | (k, b) :: m => (b != unlistedByte) && m.all (fun c => decide (k < c.1)) && Memory.wf m

/-- Every listed address is below the capacity: `DMEM` has exactly `DMEM_BYTES` bytes (R36). -/
def Memory.within (n : Nat) (m : Memory) : Bool := m.all (fun c => decide (c.1 < n))

/-- Four bytes from `a`, little-endian (R42, R46). -/
def readWord (m : Memory) (a : Nat) : Word :=
  Memory.read m (a + 3) ++ Memory.read m (a + 2) ++ Memory.read m (a + 1) ++ Memory.read m a

/-- Four bytes from `a`, little-endian (R42, R47). -/
def writeWord (m : Memory) (a : Nat) (v : Word) : Memory :=
  Memory.write
    (Memory.write
      (Memory.write
        (Memory.write m a (v.extractLsb' 0 8))
        (a + 1) (v.extractLsb' 8 8))
      (a + 2) (v.extractLsb' 16 8))
    (a + 3) (v.extractLsb' 24 8)

/-! ## The access primitives -/

/-- `signed(addr) >= 0` and `signed(addr) + 3 < DMEM_BYTES` (R44). -/
def validAddress (c : Config) (addr : Word) : Bool :=
  decide (0 ≤ addr.toInt) && decide (addr.toInt + 3 < (c.dmemBytes : Int))

/-- `MemRead(addr, 4)`, or the cause it raises (R46). -/
def memRead (s : State) (addr : Word) : Except HaltCause Word :=
  if validAddress s.cfg addr then .ok (readWord s.dmem addr.toNat)
  else .error .invalidMemoryAddress

/-- `MemWrite(addr, 4, v)`, or the cause it raises before any byte is written (R47). -/
def memWrite (s : State) (addr : Word) (v : Word) : Except HaltCause State :=
  if validAddress s.cfg addr then .ok { s with dmem := writeWord s.dmem addr.toNat v }
  else .error .invalidMemoryAddress

/-! ## Program load -/

/-- `load(words)` (R182): the program replaced, registers, `pc`, snapshot and latch reset, data memory
kept unless `CLEAR_DMEM_ON_LOAD` (R27). -/
def State.load (s : State) (words : List Word) : State :=
  { s with
    imem := words
    pc := 0#32
    regs := Vector.replicate 32 0#32
    ctrl := {}
    haltCause := .none
    dmem := if s.cfg.clearDmemOnLoad then [] else s.dmem }

end Sys2Proof.Machine
end

