-- ==== Sys2Proof/Machine/Operands.lean ====
section
/-! DEFINITION. The ALU block (R100, R101) and the two address computations: the one addressing mode
(R121) and the branch target (R131). -/

namespace Sys2Proof.Machine

/-- `alu(op, a, b)`: 32-bit, silent wraparound, no state, no fault (R100, R101). -/
def alu : AluOp → Word → Word → Word
  | .add, a, b => a + b
  | .sub, a, b => a - b
  | .and, a, b => a &&& b
  | .or, a, b => a ||| b

/-- Base register plus sign-extended displacement, modulo 2^32 (R121, D14). -/
def effectiveAddress (s : State) (rs1 : RegIdx) (imm : Word) : Word :=
  alu .add (readReg s rs1) imm

/-- The target of a branch, from the offset of the branch itself, modulo 2^32 (R131). -/
def branchTarget (s : State) (offset : Word) : Word := s.pc + offset

/-- `diff = x[rs1] - x[rs2]`, the difference a branch tests (R132). -/
def branchDiff (s : State) (rs1 rs2 : RegIdx) : Word := alu .sub (readReg s rs1) (readReg s rs2)

end Sys2Proof.Machine
end

