-- ==== Sys2Proof/Machine/Branch.lean ====
section
/-! DEFINITION. The branch unit's instructions (spec 43_branch_pc.md): beq, bne. -/

namespace Sys2Proof.Machine

/-- The shared end of R133 and R134: a taken branch goes to its target, or raises when the target is not
a multiple of 4 (R135; the spec's decision D8, log 10); one not taken goes to `pc + 4` unchecked. -/
def resolveBranch (s : State) (taken : Bool) (offset : Word) : State :=
  if taken then
    if aligned (branchTarget s offset) then setPc s (branchTarget s offset)
    else raise s .misalignedBranchTarget
  else advance s

/-- `beq rs1, rs2, offset` (R133). -/
def execBeq (rs1 rs2 : RegIdx) (offset : Word) (s : State) : Host.Outcome State Fault Refusal :=
  .next (resolveBranch (setCtrl s (controlFlags .beq)) (branchDiff s rs1 rs2 == 0#32) offset)

/-- `bne rs1, rs2, offset` (R134). -/
def execBne (rs1 rs2 : RegIdx) (offset : Word) (s : State) : Host.Outcome State Fault Refusal :=
  .next (resolveBranch (setCtrl s (controlFlags .bne)) (branchDiff s rs1 rs2 != 0#32) offset)

end Sys2Proof.Machine
end

