-- ==== Sys2Proof/Machine/Integer.lean ====
section
/-! DEFINITION. The integer computational instructions (spec 41_integer_alu.md): add, sub, and, or,
addi. None reads or writes data memory, none can fault, each ends with `pc + 4` (R109). -/

namespace Sys2Proof.Machine

/-- The shared shape of R102 to R106: flags, write-back, `pc + 4`. -/
def writeBack (s : State) (k : Kind) (rd : RegIdx) (v : Word) : State :=
  advance (writeReg (setCtrl s (controlFlags k)) rd v)

/-- `add rd, rs1, rs2` (R102). -/
def execAdd (rd rs1 rs2 : RegIdx) (s : State) : Host.Outcome State Fault Refusal :=
  .next (writeBack s (.rtype .add) rd (alu .add (readReg s rs1) (readReg s rs2)))

/-- `sub rd, rs1, rs2`; the minuend is rs1 (R103). -/
def execSub (rd rs1 rs2 : RegIdx) (s : State) : Host.Outcome State Fault Refusal :=
  .next (writeBack s (.rtype .sub) rd (alu .sub (readReg s rs1) (readReg s rs2)))

/-- `and rd, rs1, rs2` (R104). -/
def execAnd (rd rs1 rs2 : RegIdx) (s : State) : Host.Outcome State Fault Refusal :=
  .next (writeBack s (.rtype .and) rd (alu .and (readReg s rs1) (readReg s rs2)))

/-- `or rd, rs1, rs2` (R105). -/
def execOr (rd rs1 rs2 : RegIdx) (s : State) : Host.Outcome State Fault Refusal :=
  .next (writeBack s (.rtype .or) rd (alu .or (readReg s rs1) (readReg s rs2)))

/-- `addi rd, rs1, imm` (R106). -/
def execAddi (rd rs1 : RegIdx) (imm : Word) (s : State) : Host.Outcome State Fault Refusal :=
  .next (writeBack s .addi rd (alu .add (readReg s rs1) imm))

end Sys2Proof.Machine
end

