-- ==== Sys2Proof/Machine/LoadStore.lean ====
section
/-! DEFINITION. The load/store unit's instructions (spec 42_load_store.md): lw, sw. A failing access
changes only `ctrl` and the latch (R124; the spec's decisions D5, D6, logs 7 and 9). -/

namespace Sys2Proof.Machine

/-- `lw rd, imm(rs1)` (R122): the flags, then the checked read, then the write-back and `pc + 4`. -/
def execLw (rd rs1 : RegIdx) (imm : Word) (s : State) : Host.Outcome State Fault Refusal :=
  match memRead s (effectiveAddress s rs1 imm) with
  | .ok v => .next (advance (writeReg (setCtrl s (controlFlags .lw)) rd v))
  | .error c => .next (raise (setCtrl s (controlFlags .lw)) c)

/-- `sw rs2, imm(rs1)` (R123): the flags, then the checked write, then `pc + 4`. -/
def execSw (rs2 rs1 : RegIdx) (imm : Word) (s : State) : Host.Outcome State Fault Refusal :=
  match memWrite (setCtrl s (controlFlags .sw)) (effectiveAddress s rs1 imm) (readReg s rs2) with
  | .ok t => .next (advance t)
  | .error c => .next (raise (setCtrl s (controlFlags .sw)) c)

end Sys2Proof.Machine
end

