-- ==== Sys2Proof/Machine/Cycle.lean ====
section
/-! DEFINITION. One cycle of the engine (R140): the text behind `step`. -/

namespace Sys2Proof.Machine

/-- What a Ready engine does with the word it fetched (R140 steps 3 to 6): a rejected word halts the
engine with the snapshot unchanged (R143, R162), any other is executed. -/
def runWord (w : Word) (s : State) : Host.Outcome State Fault Refusal :=
  match decode w with
  | .ok i => exec i s
  | .error _ => .next (raise s .unsupportedInstruction)

/-- `step()` (R140): a Halted engine does nothing; a Ready one fetches at `pc / 4` and runs the word. A
Ready engine always has a word there (R142), so the last case repeats the Halted one. A `pc` that is no
multiple of 4 is outside the data model (log 5). -/
def cycle (s : State) : Host.Outcome State Fault Refusal :=
  if halted s then .next s
  else if aligned s.pc then
    match fetch s with
    | some w => runWord w s
    | none => .next s
  else .fault .unalignedPc

/-- Instruction memory with the word at index `k` replaced, extended by zero words where it is too short
(used only to place a word for the next fetch, log 25). -/
def placeWord (imem : List Word) (k : Nat) (w : Word) : List Word :=
  imem.take k ++ List.replicate (k - imem.length) 0#32 ++ w :: imem.drop (k + 1)

/-- The largest multiple of 4 not above `v`. -/
def alignDown (v : Word) : Word := v.extractLsb' 2 30 ++ 0#2

end Sys2Proof.Machine
end

