-- ==== Sys2Proof/Machine/Step.lean ====
section
/-! DEFINITION. The machine's step (R140), and the placing of one word where the next step fetches. -/

namespace Sys2Proof.Machine

/-- One invocation of `step`: one cycle, at most one instruction (R140, R147). -/
def step (s : State) : Host.Outcome State Fault Refusal := cycle s

/-- `s` with the instruction whose bits are `w` at index `pc / 4` of instruction memory, the latch
clear and the `pc` a multiple of 4, so that the next step fetches and runs exactly it. It stands for
the program load, the only way a word comes into instruction memory (R28, R182; logs 3 and 25). -/
def State.withFetchWord (s : State) (nbits w : Nat) : State :=
  { s with
    imem := placeWord s.imem (s.pc.toNat / 4) (BitVec.ofNat 32 (w % 2 ^ nbits))
    pc := alignDown s.pc
    haltCause := .none }

end Sys2Proof.Machine
end

