-- ==== Sys2Proof/Machine/Datapath.lean ====
section
/-! DEFINITION. The six blocks wired by the control flags (R88, R89, R150, R151): a second statement of
one cycle, beside the instruction rules. The flags' meanings are the textbook's (G3, log 13). -/

namespace Sys2Proof.Machine

/-- The register-file block's read ports: `a = x[rs1]`, `r2 = x[rs2]` (R151). -/
structure ReadPorts where
  a : Word
  r2 : Word
deriving DecidableEq, Repr

/-- Both read ports of the register file (R151). -/
def registerFileRead (s : State) (f : Fields) : ReadPorts where
  a := readReg s f.rs1
  r2 := readReg s f.rs2

/-- ALU operand `b`: the immediate when `ALUSrc` (immS for SW, else immI), otherwise `x[rs2]` (R89). -/
def aluOperandB (k : Kind) (flags : ControlSignals) (f : Fields) (r2 : Word) : Word :=
  if flags.aluSrc then (if k = .sw then f.immS else f.immI) else r2

/-- The operation R83 gives an RTYPE kind; the other kinds never ask for it. -/
def functOp : Kind → AluOp
  | .rtype op => op
  | _ => .add

/-- `(ALUOp1, ALUOp0)`: 00 add, 01 subtract, 10 the operation of R83 (R88, R89). The pair 11 is produced
by no kind (R89, log 26). -/
def aluControl (k : Kind) (flags : ControlSignals) : AluOp :=
  match flags.aluOp1, flags.aluOp0 with
  | false, false => .add
  | false, true => .sub
  | true, _ => functOp k

/-- The load/store unit's step: the loaded word (0 when it reads nothing) and the data memory after it,
or the invalid-address signal (R120, R151). -/
def loadStoreUnit (s : State) (flags : ControlSignals) (addr wdata : Word) :
    Except HaltCause (Word × Memory) :=
  if flags.memRead then
    match memRead s addr with
    | .ok v => .ok (v, s.dmem)
    | .error c => .error c
  else if flags.memWrite then
    match memWrite s addr wdata with
    | .ok t => .ok (0#32, t.dmem)
    | .error c => .error c
  else .ok (0#32, s.dmem)

/-- `taken = Branch and (if funct3[0] = 0 then zero else not zero)` (R89). -/
def branchTaken (flags : ControlSignals) (funct3 : BitVec 3) (zero : Bool) : Bool :=
  flags.branch && (if funct3.getLsbD 0 then !zero else zero)

/-- The pc and branch unit: the next `pc`, or the misaligned-target signal (R89, R135, R151). -/
def pcUnit (s : State) (immB : Word) (taken : Bool) : Except HaltCause Word :=
  if taken then
    if aligned (branchTarget s immB) then .ok (branchTarget s immB)
    else .error .misalignedBranchTarget
  else .ok (s.pc + 4#32)

/-- `wb = if MemToReg then mem_data else alu_result`, written when `RegWrite` (R89). -/
def registerFileWrite (s : State) (flags : ControlSignals) (rd : RegIdx) (memData result : Word) :
    State :=
  if flags.regWrite then writeReg s rd (if flags.memToReg then memData else result) else s

/-- The datapath of an accepted word: every block's value from the state of before the step, and a
commit only when no block signals a cause (R89, R151 "top, commit"). -/
def datapath (k : Kind) (flags : ControlSignals) (f : Fields) (s : State) : State :=
  let ports := registerFileRead s f
  let result := alu (aluControl k flags) ports.a (aluOperandB k flags f ports.r2)
  let taken := branchTaken flags f.funct3 (result == 0#32)
  let s1 := setCtrl s flags
  match loadStoreUnit s flags result ports.r2, pcUnit s f.immB taken with
  | .ok (memData, dmem), .ok nextPc =>
    setPc { registerFileWrite s1 flags f.rd memData result with dmem := dmem } nextPc
  | .error c, _ => raise s1 c
  | .ok _, .error c => raise s1 c

/-- One cycle through the blocks: fetch, decoder, control unit, datapath, commit (R140, R151). -/
def datapathCycle (s : State) : Host.Outcome State Fault Refusal :=
  if halted s then .next s
  else if aligned s.pc then
    match fetch s with
    | none => .next s
    | some w =>
      let f := decodeFields w
      match controlUnit f.opcode f.funct3 f.funct7 with
      | .error _ => .next (raise s .unsupportedInstruction)
      | .ok (k, flags) => .next (datapath k flags f s)
  else .fault .unalignedPc

end Sys2Proof.Machine
end

