-- ==== Sys2Proof/Machine/Loader.lean ====
section
/-! DEFINITION. From program text lines to instruction words (R183, R184): the loader's side of the
program-load boundary, over lists of characters. -/

namespace Sys2Proof.Machine

/-- The two characters of a program line (R183). -/
def isBinaryDigit (c : Char) : Bool := c == '0' || c == '1'

/-- What trimming removes: white space, which the spec leaves to the loader (R183, N25, log 15). A
binary digit is not white space. -/
def isTrimmed (c : Char) : Bool := !isBinaryDigit c && Config.loaderSpace c

/-- Leading and trailing white space removed (R183). -/
def trimLine (line : List Char) : List Char :=
  ((line.dropWhile isTrimmed).reverse.dropWhile isTrimmed).reverse

/-- A string of binary digits as an unsigned binary literal, most significant digit first (R184; the
spec's decision D13, log 14). -/
def binaryLiteral (digits : List Char) : Nat :=
  digits.foldl (fun n c => 2 * n + (if c = '1' then 1 else 0)) 0

/-- The word of a line whose trimmed text is exactly 32 binary digits; any other line is malformed and
excluded (R183, C10). -/
def parseLine (line : List Char) : Option Word :=
  if (trimLine line).length = 32 ∧ (trimLine line).all isBinaryDigit then
    some (BitVec.ofNat 32 (binaryLiteral (trimLine line)))
  else none

/-- The words of the well-formed lines, in order; a load never fails (R183). -/
def parseProgram (lines : List (List Char)) : List Word := lines.filterMap parseLine

/-- A word as 32 characters, bit 31 first: a program line, and the display's item (d) (R154, R184). -/
def wordDigits (w : Word) : List Char :=
  (List.range 32).map (fun i => if w.getLsbD (31 - i) then '1' else '0')

end Sys2Proof.Machine
end

