-- ==== Sys2Proof/Machine/HostSide.lean ====
section
/-! DEFINITION. The host's side of the engine (spec 44_cycle_engine.md section 4): the events it can send,
the report of a failed step, the run, and the display snapshot. -/

namespace Sys2Proof.Machine

/-! ## Events -/

/-- The inputs of R152. -/
inductive HostEvent where
  /-- A fresh state initialization (R180), with the same configuration. -/
  | powerOn
  /-- A program load (R182). -/
  | load (words : List Word)
  /-- One step (R140). -/
  | step
deriving DecidableEq, Repr

/-- The state after an event. A load takes at most `IMEM_WORDS_MAX` words (R182); a longer list is no
input of the spec and is refused (log 16). Power-on keeps the configuration (log 22). -/
def hostEvent (e : HostEvent) (s : State) : Host.Outcome State Fault Refusal :=
  match e with
  | .powerOn => .next (State.powerOn s.cfg)
  | .load words =>
    if words.length ≤ s.cfg.imemWordsMax then .next (s.load words) else .refused .programTooLong
  | .step => step s

/-- A program load given as text lines (R183). -/
def loadText (lines : List (List Char)) (s : State) : Host.Outcome State Fault Refusal :=
  hostEvent (.load (parseProgram lines)) s

/-! ## The report of a rejected or faulted step -/

/-- The tuple of R155 (the spec's decision D16). -/
structure Report where
  cause : HaltCause
  pc : Word
  instr : Word
  info : Word
deriving DecidableEq, Repr

/-- What a report gives as `info` (R155, R160): the word, the effective address, or the target. -/
def reportInfo (s : State) (w : Word) : Option Word :=
  match s.haltCause with
  | .none => none
  | .unsupportedInstruction => some w
  | .invalidMemoryAddress =>
    match decode w with
    | .ok (.lw _ rs1 imm) => some (effectiveAddress s rs1 imm)
    | .ok (.sw _ rs1 imm) => some (effectiveAddress s rs1 imm)
    | _ => none
  | .misalignedBranchTarget => some (branchTarget s (immBOf w))

/-- The report recomputed from the state after the failed step (R155: the `pc` still points at the
instruction and the registers are unchanged). -/
def reportOf (s : State) : Option Report :=
  match fetch s with
  | none => none
  | some w =>
    match reportInfo s w with
    | none => none
    | some info => some { cause := s.haltCause, pc := s.pc, instr := w, info := info }

/-- The report the step from `s` makes: none from a Halted engine (R155), none from a completed step. -/
def stepReport (s : State) : Option Report :=
  if halted s then none
  else
    match step s with
    | .next t => reportOf t
    | _ => none

/-! ## Run -/

/-- `runToCompletion` (R148): step while Ready, for at most `fuel` steps (R137, log 24). -/
def runToCompletion : Nat → State → Host.Outcome State Fault Refusal
  | 0, s => .next s
  | fuel + 1, s =>
    if halted s then .next s
    else
      match step s with
      | .next t => runToCompletion fuel t
      | .fault r => .fault r
      | .refused r => .refused r

/-- The four ways a run ends (R149). -/
inductive RunEnd where
  /-- No cause, `pc` at or beyond the end: the only successful end. -/
  | normal
  | unsupportedInstruction
  | invalidMemoryAddress
  | misalignedBranchTarget
deriving DecidableEq, Repr

/-- How the run that reached `s` ended, when it ended (R149; the spec's decision D18). -/
def runEnd (s : State) : Option RunEnd :=
  match s.haltCause with
  | .none => if s.pc.toNat < 4 * s.imem.length then none else some .normal
  | .unsupportedInstruction => some .unsupportedInstruction
  | .invalidMemoryAddress => some .invalidMemoryAddress
  | .misalignedBranchTarget => some .misalignedBranchTarget

/-! ## Display snapshot -/

/-- Items (a) to (e) of R154; (f), the raw text lines, is the loader's. -/
structure Snapshot where
  ctrl : ControlSignals
  regs : List Word
  memoryWords : List (Nat × Word)
  nextInstr : Option (List Char)
  pc : Word
deriving DecidableEq, Repr

/-- Item (c) of R154: the non-zero words at the addresses 0, 4, .., with their addresses. -/
def displayMemory (s : State) : List (Nat × Word) :=
  ((List.range (s.cfg.dmemBytes / 4)).map (fun k => (4 * k, readWord s.dmem (4 * k)))).filter
    (fun p => p.2 != 0#32)

/-- Item (d) of R154: the next word's bits, bit 31 first, when Ready. When Halted the source does not say
what is shown (N23, log 20). -/
def displayNext (s : State) : Option (List Char) :=
  if halted s then none else (fetch s).map wordDigits

/-- What the host reads between steps, without effect (R154). -/
def snapshot (s : State) : Snapshot where
  ctrl := s.ctrl
  regs := (List.finRange 32).map (readReg s)
  memoryWords := displayMemory s
  nextInstr := displayNext s
  pc := s.pc

end Sys2Proof.Machine
end

