-- ==== Sys2Proof/Safety.lean ====
section
/-! DEFINITION. The terms claims are stated in: the invariants of every reachable state (R36), reachability
by the host's events (R13, R152), agreement of two states on everything but the control snapshot, and
the successful end of a run (R149). -/

namespace Sys2Proof.Machine

/-- What R36 (5) says of the latch: a cause is held only while the `pc` is at the word that raised it.
The registers are those the instruction read, so the condition it failed on still holds. -/
def CauseExplained (s : State) : Prop :=
  match s.haltCause with
  | .none => True
  | .unsupportedInstruction => ∃ w e, fetch s = some w ∧ decode w = .error e
  | .invalidMemoryAddress =>
    ∃ w r rs1 imm, fetch s = some w
      ∧ (decode w = .ok (.lw r rs1 imm) ∨ decode w = .ok (.sw r rs1 imm))
      ∧ validAddress s.cfg (effectiveAddress s rs1 imm) = false
  | .misalignedBranchTarget =>
    ∃ w rs1 rs2 offset, fetch s = some w
      ∧ ((decode w = .ok (.beq rs1 rs2 offset) ∧ branchDiff s rs1 rs2 = 0#32)
        ∨ (decode w = .ok (.bne rs1 rs2 offset) ∧ branchDiff s rs1 rs2 ≠ 0#32))
      ∧ aligned (branchTarget s offset) = false

/-- The invariants of R36, with the configuration's constraints (R8) and the canonical form of data
memory: (1) cell 0 is 0, (2) `pc[1:0] = 0`, (3) `N <= IMEM_WORDS_MAX`, (4) `DMEM` has exactly
`DMEM_BYTES` bytes, (5) the latch points at its instruction. -/
structure StateInv (s : State) : Prop where
  cfgValid : s.cfg.Valid
  regZero : s.regs[0] = 0#32
  pcAligned : aligned s.pc = true
  programFits : s.imem.length ≤ s.cfg.imemWordsMax
  memoryCanonical : Memory.wf s.dmem = true
  memoryWithin : Memory.within s.cfg.dmemBytes s.dmem = true
  causeExplained : CauseExplained s

/-- The states reachable from power-on, with any configuration of R8, by the host's events. -/
inductive Reachable : State → Prop where
  | powerOn (c : Config) (h : c.Valid) : Reachable (State.powerOn c)
  | event (e : HostEvent) {s t : State} (hs : Reachable s) (h : hostEvent e s = .next t) : Reachable t

/-- The state a step gives with the snapshot blanked, to compare two steps on everything else. -/
def blankCtrl : Host.Outcome State Fault Refusal → Host.Outcome State Fault Refusal
  | .next s => .next (setCtrl s {})
  | .fault r => .fault r
  | .refused r => .refused r

/-- The successful end of a run: no cause, and the `pc` at or beyond the end of the program (R149). -/
def SuccessfulEnd (s : State) : Prop := runEnd s = some .normal

/-- Every register but `rd` reads as before. -/
def RegsUnchangedExcept (rd : RegIdx) (s t : State) : Prop :=
  ∀ r, r ≠ rd → readReg t r = readReg s r

/-- Every register reads as before. -/
def RegsUnchanged (s t : State) : Prop := ∀ r, readReg t r = readReg s r

/-- Every byte of data memory reads as before. -/
def MemUnchanged (s t : State) : Prop := ∀ a, Memory.read t.dmem a = Memory.read s.dmem a

/-- Every byte of data memory outside the four from `a` reads as before. -/
def MemUnchangedOutside (a : Nat) (s t : State) : Prop :=
  ∀ b, (b < a ∨ a + 4 ≤ b) → Memory.read t.dmem b = Memory.read s.dmem b

/-- Instruction memory and the configuration are as before. -/
def ProgramUnchanged (s t : State) : Prop := t.imem = s.imem ∧ t.cfg = s.cfg

/-- What an instruction that writes back and falls through leaves: `x[rd] <- v` (nothing for `rd = 0`),
every other register as before, `pc + 4`, the flags, and everything else as before (R102 to R106). -/
def WroteBack (rd : RegIdx) (v : Word) (flags : BitVec 9) (s t : State) : Prop :=
  readReg t rd = (if rd = 0 then 0#32 else v) ∧ RegsUnchangedExcept rd s t ∧
  t.pc = s.pc + 4#32 ∧ ctrlBits t.ctrl = flags ∧ MemUnchanged s t ∧ ProgramUnchanged s t ∧
  t.haltCause = s.haltCause

/-- What a raise leaves: the cause latched, the flags, and everything else as before (R161). -/
def RaisedWith (c : HaltCause) (flags : BitVec 9) (s t : State) : Prop :=
  t.haltCause = c ∧ ctrlBits t.ctrl = flags ∧ RegsUnchanged s t ∧ MemUnchanged s t ∧
  t.pc = s.pc ∧ ProgramUnchanged s t

/-- What a branch that completes leaves: the new `pc` and the flags, everything else as before. -/
def Branched (target : Word) (s t : State) : Prop :=
  t.pc = target ∧ ctrlBits t.ctrl = 0b001000001#9 ∧ RegsUnchanged s t ∧ MemUnchanged s t ∧
  ProgramUnchanged s t ∧ t.haltCause = s.haltCause

/-- The register an instruction writes (R23). -/
def destination : Instr → Option RegIdx
  | .add rd _ _ => some rd
  | .sub rd _ _ => some rd
  | .and rd _ _ => some rd
  | .or rd _ _ => some rd
  | .addi rd _ _ => some rd
  | .lw rd _ _ => some rd
  | .sw _ _ _ => none
  | .beq _ _ _ => none
  | .bne _ _ _ => none

/-- The `pc` a completing instruction commits (R130). -/
def nextPcOf (s : State) : Instr → Word
  | .add _ _ _ => s.pc + 4#32
  | .sub _ _ _ => s.pc + 4#32
  | .and _ _ _ => s.pc + 4#32
  | .or _ _ _ => s.pc + 4#32
  | .addi _ _ _ => s.pc + 4#32
  | .lw _ _ _ => s.pc + 4#32
  | .sw _ _ _ => s.pc + 4#32
  | .beq rs1 rs2 offset =>
    if readReg s rs1 = readReg s rs2 then s.pc + offset else s.pc + 4#32
  | .bne rs1 rs2 offset =>
    if readReg s rs1 = readReg s rs2 then s.pc + 4#32 else s.pc + offset

end Sys2Proof.Machine
end

