-- ==== Sys2Proof/Certificates/Slice0/Obligations.lean ====
section
/-! DEFINITION. The statements for the provers, from the numbered rules of the spec. Where one rests on a
decision the spec marks as its own, or on this model's choice, its docstring says so and names it. -/

open Sys2Proof Sys2Proof.Machine

/-! ## Decoder, control unit, encoder -/

/-- The words the spec writes out (95_test_vectors.md V1, V2) decode to the instructions they stand for,
one or more of every format. The two branch words rest on the spec's general knowledge (G2, log 12). -/
def Obligations.SpecWordsDecode : Prop :=
  decode 0x002081B3#32 = .ok (.add 3 1 2) ∧ decode 0x402081B3#32 = .ok (.sub 3 1 2) ∧
  decode 0x0020F1B3#32 = .ok (.and 3 1 2) ∧ decode 0x0020E1B3#32 = .ok (.or 3 1 2) ∧
  decode 0xFFF00093#32 = .ok (.addi 1 0 0xFFFFFFFF#32) ∧
  decode 0xFFC0A103#32 = .ok (.lw 2 1 0xFFFFFFFC#32) ∧
  decode 0xFE20AE23#32 = .ok (.sw 2 1 0xFFFFFFFC#32) ∧
  decode 0x00208463#32 = .ok (.beq 1 2 8#32) ∧
  decode 0xFE009CE3#32 = .ok (.bne 1 0 0xFFFFFFF8#32)

/-- Decoding the encoding of any well-formed instruction gives it back, every operand at every value (the branch encodings by the spec's G2, log 12). -/
def Obligations.DecodeOfEncode : Prop :=
  ∀ i : Instr, i.WellFormed → decode (encode i) = .ok i

/-- A supported word is the encoding of the well-formed instruction it decodes to: no bit of it is
ignored and no two words mean the same instruction (30_encoding.md section 5; the branch encodings by
the spec's G2, log 12). -/
def Obligations.EncodeOfDecode : Prop :=
  ∀ (w : Word) (i : Instr), decode w = .ok i → i.WellFormed ∧ encode i = w

/-- The opcode table, row by row: a word is the instruction of a row iff `w & mask = match` (R71). The
rows of beq and bne rest on the funct3 pairing the spec marks as general knowledge (G2, log 12). -/
def Obligations.OpcodeTableRows : Prop :=
  ∀ w : Word,
    ((w &&& 0xFE00707F#32 = 0x00000033#32) ↔ ∃ rd rs1 rs2, decode w = .ok (.add rd rs1 rs2)) ∧
    ((w &&& 0xFE00707F#32 = 0x40000033#32) ↔ ∃ rd rs1 rs2, decode w = .ok (.sub rd rs1 rs2)) ∧
    ((w &&& 0xFE00707F#32 = 0x00007033#32) ↔ ∃ rd rs1 rs2, decode w = .ok (.and rd rs1 rs2)) ∧
    ((w &&& 0xFE00707F#32 = 0x00006033#32) ↔ ∃ rd rs1 rs2, decode w = .ok (.or rd rs1 rs2)) ∧
    ((w &&& 0x0000707F#32 = 0x00000013#32) ↔ ∃ rd rs1 imm, decode w = .ok (.addi rd rs1 imm)) ∧
    ((w &&& 0x0000707F#32 = 0x00002003#32) ↔ ∃ rd rs1 imm, decode w = .ok (.lw rd rs1 imm)) ∧
    ((w &&& 0x0000707F#32 = 0x00002023#32) ↔ ∃ rs2 rs1 imm, decode w = .ok (.sw rs2 rs1 imm)) ∧
    ((w &&& 0x0000707F#32 = 0x00000063#32) ↔ ∃ rs1 rs2 off, decode w = .ok (.beq rs1 rs2 off)) ∧
    ((w &&& 0x0000707F#32 = 0x00001063#32) ↔ ∃ rs1 rs2 off, decode w = .ok (.bne rs1 rs2 off))

/-- The unsupported words are exactly the classes (a) to (f) of R72, and a Ready engine that fetches one
raises `UnsupportedInstruction`: it is never a no-op and never some other instruction. -/
def Obligations.UnsupportedWordsExactly : Prop :=
  (∀ w : Word, (∃ e, decode w = .error e) ↔
    (opcodeField w ≠ 0x03#7 ∧ opcodeField w ≠ 0x13#7 ∧ opcodeField w ≠ 0x23#7 ∧
      opcodeField w ≠ 0x33#7 ∧ opcodeField w ≠ 0x63#7) ∨
    (opcodeField w = 0x33#7 ∧
      (funct3Field w, funct7Field w) ∉
        [(0#3, 0x00#7), (0#3, 0x20#7), (7#3, 0x00#7), (6#3, 0x00#7)]) ∨
    (opcodeField w = 0x13#7 ∧ funct3Field w ≠ 0#3) ∨
    (opcodeField w = 0x03#7 ∧ funct3Field w ≠ 2#3) ∨
    (opcodeField w = 0x23#7 ∧ funct3Field w ≠ 2#3) ∨
    (opcodeField w = 0x63#7 ∧ 2#3 ≤ funct3Field w)) ∧
  (∀ w : Word, w.extractLsb' 0 2 ≠ 0b11#2 → ∃ e, decode w = .error e) ∧
  (∀ (s : State) (w : Word) (e : Reject), halted s = false → aligned s.pc = true →
    fetch s = some w → decode w = .error e →
    ∃ t, step s = .next t ∧ t.haltCause = .unsupportedInstruction)

/-- The decoder's fields as the bits the spec gives them, with its corner cases and worked example
(R80). -/
def Obligations.DecoderFields : Prop :=
  (∀ w : Word,
    (decodeFields w).opcode.toNat = w.toNat % 2 ^ 7 ∧
    (decodeFields w).rd.val = w.toNat / 2 ^ 7 % 2 ^ 5 ∧
    (decodeFields w).funct3.toNat = w.toNat / 2 ^ 12 % 2 ^ 3 ∧
    (decodeFields w).rs1.val = w.toNat / 2 ^ 15 % 2 ^ 5 ∧
    (decodeFields w).rs2.val = w.toNat / 2 ^ 20 % 2 ^ 5 ∧
    (decodeFields w).funct7.toNat = w.toNat / 2 ^ 25 ∧
    (decodeFields w).immI = (w.extractLsb' 20 12).signExtend 32 ∧
    (decodeFields w).immS
      = (w.extractLsb' 25 7 ++ w.extractLsb' 7 5 : BitVec 12).signExtend 32 ∧
    (decodeFields w).immB
      = (w.extractLsb' 31 1 ++ w.extractLsb' 7 1 ++ w.extractLsb' 25 6 ++ w.extractLsb' 8 4 ++ 0#1
          : BitVec 13).signExtend 32) ∧
  decodeFields 0x00000000#32 = ⟨0x00#7, 0, 0#3, 0, 0, 0x00#7, 0#32, 0#32, 0#32⟩ ∧
  decodeFields 0xFFFFFFFF#32
    = ⟨0x7F#7, 31, 7#3, 31, 31, 0x7F#7, 0xFFFFFFFF#32, 0xFFFFFFFF#32, 0xFFFFFFFE#32⟩ ∧
  decodeFields 0x002081B3#32
    = ⟨0x33#7, 3, 0#3, 1, 2, 0x00#7, 0x00000002#32, 0x00000003#32, 0x00000802#32⟩

/-- The I-immediate of any word: sign bits, low bits, range, the source's property, and its use by `addi`
and `lw` (R66). -/
def Obligations.ImmediateI : Prop :=
  (∀ w : Word,
    (∀ i, 11 ≤ i → i < 32 → (immIOf w).getLsbD i = w.getLsbD 31) ∧
    (∀ i, i < 11 → (immIOf w).getLsbD i = w.getLsbD (20 + i)) ∧
    -2048 ≤ (immIOf w).toInt ∧ (immIOf w).toInt ≤ 2047 ∧
    (immIOf w).toInt =
      (if w.getLsbD 31 then (w.toNat / 2 ^ 20 : Int) - 4096 else (w.toNat / 2 ^ 20 : Int)) ∧
    (∀ rd rs1 imm, decode w = .ok (.addi rd rs1 imm) → imm = immIOf w) ∧
    (∀ rd rs1 imm, decode w = .ok (.lw rd rs1 imm) → imm = immIOf w)) ∧
  immIOf 0xFFF00093#32 = 0xFFFFFFFF#32 ∧ immIOf 0x7FF00093#32 = 0x000007FF#32

/-- The S-immediate of any word: sign bits, the two fields, range, and its use by `sw` (R67). -/
def Obligations.ImmediateS : Prop :=
  (∀ w : Word,
    (∀ i, 11 ≤ i → i < 32 → (immSOf w).getLsbD i = w.getLsbD 31) ∧
    (∀ i, 5 ≤ i → i < 11 → (immSOf w).getLsbD i = w.getLsbD (20 + i)) ∧
    (∀ i, i < 5 → (immSOf w).getLsbD i = w.getLsbD (7 + i)) ∧
    -2048 ≤ (immSOf w).toInt ∧ (immSOf w).toInt ≤ 2047 ∧
    (∀ rs2 rs1 imm, decode w = .ok (.sw rs2 rs1 imm) → imm = immSOf w)) ∧
  immSOf 0xFE20AE23#32 = 0xFFFFFFFC#32

/-- The B-immediate of any word: sign bits, the scattered fields, always even, range, and its use by the
branches (R68). -/
def Obligations.ImmediateB : Prop :=
  (∀ w : Word,
    (∀ i, 12 ≤ i → i < 32 → (immBOf w).getLsbD i = w.getLsbD 31) ∧
    (immBOf w).getLsbD 11 = w.getLsbD 7 ∧
    (∀ i, 5 ≤ i → i < 11 → (immBOf w).getLsbD i = w.getLsbD (20 + i)) ∧
    (∀ i, 1 ≤ i → i < 5 → (immBOf w).getLsbD i = w.getLsbD (7 + i)) ∧
    (immBOf w).getLsbD 0 = false ∧
    -4096 ≤ (immBOf w).toInt ∧ (immBOf w).toInt ≤ 4094 ∧
    (∀ rs1 rs2 off, decode w = .ok (.beq rs1 rs2 off) → off = immBOf w) ∧
    (∀ rs1 rs2 off, decode w = .ok (.bne rs1 rs2 off) → off = immBOf w)) ∧
  immBOf 0x00208463#32 = 0x00000008#32 ∧ immBOf 0xFE009CE3#32 = 0xFFFFFFF8#32

/-- The control unit and the decoder agree: a word is accepted with kind `k` and its flags exactly when
it decodes to an instruction of kind `k`, and rejected under a class exactly when the decoder rejects it
under that class (40_decode_control.md sections 2 and 3; the flags by the spec's D7, log 8, the branches
by its G2, log 12). -/
def Obligations.ControlAgreesWithDecode : Prop :=
  ∀ w : Word,
    (∀ k flags, controlUnit (opcodeField w) (funct3Field w) (funct7Field w) = .ok (k, flags) ↔
      (flags = controlFlags k ∧ ∃ i, decode w = .ok i ∧ kindOf i = k)) ∧
    (∀ e, controlUnit (opcodeField w) (funct3Field w) (funct7Field w) = .error e ↔ decode w = .error e)

/-- Every instruction answers a next state whose snapshot is its row of the flag table (R85), whether it
completes or raises. The cells printed "—" are the spec's decision D7 (log 8); the snapshot of an
instruction that raises is D6 (log 7). -/
def Obligations.ControlFlagTable : Prop :=
  ∀ (i : Instr) (s : State), ∃ t, exec i s = .next t ∧
    ctrlBits t.ctrl =
      (match i with
        | .add _ _ _ => 0b110000010#9
        | .sub _ _ _ => 0b110000010#9
        | .and _ _ _ => 0b110000010#9
        | .or _ _ _ => 0b110000010#9
        | .addi _ _ _ => 0b110000100#9
        | .lw _ _ _ => 0b110110100#9
        | .sw _ _ _ => 0b000001100#9
        | .beq _ _ _ => 0b001000001#9
        | .bne _ _ _ => 0b001000001#9)

/-! ## Registers and the ALU -/

/-- Index 0 always reads 0, in every state and so after every step and load, whatever was written
(R21). -/
def Obligations.RegisterZeroReadsZero : Prop :=
  (∀ s : State, readReg s 0 = 0#32) ∧
  (∀ s t : State, step s = .next t → readReg t 0 = 0#32) ∧
  (∀ (s : State) (v : Word), readReg (writeReg s 0 v) 0 = 0#32)

/-- A write to `x[1]` to `x[31]` replaces that register and no other; a write to `x[0]` changes nothing
(R22; that cell 0 holds no value is the spec's decision D21, log 6). -/
def Obligations.RegisterWriteSeen : Prop :=
  (∀ (s : State) (i j : RegIdx) (v : Word), i ≠ 0 →
    readReg (writeReg s i v) j = if j = i then v else readReg s j) ∧
  (∀ (s : State) (v : Word), writeReg s 0 v = s)

/-- The ALU's four operations, which are all it has, the funct pairs they stand for, and the two it also
computes: the effective address and the difference a branch tests (R100). -/
def Obligations.AluOperations : Prop :=
  (∀ a b : Word,
    (alu .add a b).toNat = (a.toNat + b.toNat) % 2 ^ 32 ∧
    (alu .sub a b).toInt = (a.toInt - b.toInt).bmod (2 ^ 32) ∧
    ((alu .sub a b).toNat : Int) = ((a.toNat : Int) - b.toNat) % 2 ^ 32 ∧
    (∀ i, (alu .and a b).getLsbD i = (a.getLsbD i && b.getLsbD i)) ∧
    (∀ i, (alu .or a b).getLsbD i = (a.getLsbD i || b.getLsbD i))) ∧
  (∀ op : AluOp, op ∈ [AluOp.add, .sub, .and, .or]) ∧
  classify 0x33#7 0#3 0x00#7 = .ok (.rtype .add) ∧ classify 0x33#7 0#3 0x20#7 = .ok (.rtype .sub) ∧
  classify 0x33#7 7#3 0x00#7 = .ok (.rtype .and) ∧ classify 0x33#7 6#3 0x00#7 = .ok (.rtype .or) ∧
  (∀ (s : State) (rs1 rs2 : RegIdx) (imm : Word),
    effectiveAddress s rs1 imm = alu .add (readReg s rs1) imm ∧
    branchDiff s rs1 rs2 = alu .sub (readReg s rs1) (readReg s rs2))

/-! ## The integer instructions -/

/-- `add rd, rs1, rs2` (R102): its encoding, and in every state the sum modulo 2^32, the frame and the
flags. It never faults; for `rd = 0` the sum is discarded. -/
def Obligations.AddWritesSum : Prop :=
  (∀ w : Word, w &&& 0xFE00707F#32 = 0x00000033#32 →
    decode w = .ok (.add (regOfBits (rdField w)) (regOfBits (rs1Field w)) (regOfBits (rs2Field w)))) ∧
  (∀ (rd rs1 rs2 : RegIdx) (s : State), ∃ t, exec (.add rd rs1 rs2) s = .next t ∧
    WroteBack rd (readReg s rs1 + readReg s rs2) 0b110000010#9 s t)

/-- `sub rd, rs1, rs2` (R103): as `add`, with the difference, the minuend being rs1. -/
def Obligations.SubWritesDifference : Prop :=
  (∀ w : Word, w &&& 0xFE00707F#32 = 0x40000033#32 →
    decode w = .ok (.sub (regOfBits (rdField w)) (regOfBits (rs1Field w)) (regOfBits (rs2Field w)))) ∧
  (∀ (rd rs1 rs2 : RegIdx) (s : State), ∃ t, exec (.sub rd rs1 rs2) s = .next t ∧
    WroteBack rd (readReg s rs1 - readReg s rs2) 0b110000010#9 s t)

/-- `and rd, rs1, rs2` (R104): as `add`, with the bitwise conjunction; the same funct3 with funct7 0x20
is rejected. -/
def Obligations.AndWritesConjunction : Prop :=
  (∀ w : Word, w &&& 0xFE00707F#32 = 0x00007033#32 →
    decode w = .ok (.and (regOfBits (rdField w)) (regOfBits (rs1Field w)) (regOfBits (rs2Field w)))) ∧
  (∀ w : Word, w &&& 0xFE00707F#32 = 0x40007033#32 → ∃ e, decode w = .error e) ∧
  (∀ (rd rs1 rs2 : RegIdx) (s : State), ∃ t, exec (.and rd rs1 rs2) s = .next t ∧
    WroteBack rd (readReg s rs1 &&& readReg s rs2) 0b110000010#9 s t)

/-- `or rd, rs1, rs2` (R105): as `add`, with the bitwise disjunction; the same funct3 with funct7 0x20 is
rejected. -/
def Obligations.OrWritesDisjunction : Prop :=
  (∀ w : Word, w &&& 0xFE00707F#32 = 0x00006033#32 →
    decode w = .ok (.or (regOfBits (rdField w)) (regOfBits (rs1Field w)) (regOfBits (rs2Field w)))) ∧
  (∀ w : Word, w &&& 0xFE00707F#32 = 0x40006033#32 → ∃ e, decode w = .error e) ∧
  (∀ (rd rs1 rs2 : RegIdx) (s : State), ∃ t, exec (.or rd rs1 rs2) s = .next t ∧
    WroteBack rd (readReg s rs1 ||| readReg s rs2) 0b110000010#9 s t)

/-- `addi rd, rs1, imm` (R106): its encoding with the sign-extended 12-bit immediate, and the sum. Any
funct3 other than 0 under its opcode is rejected. -/
def Obligations.AddiWritesSum : Prop :=
  (∀ w : Word, w &&& 0x0000707F#32 = 0x00000013#32 →
    decode w = .ok (.addi (regOfBits (rdField w)) (regOfBits (rs1Field w))
      ((w.extractLsb' 20 12).signExtend 32))) ∧
  (∀ w : Word, opcodeField w = 0x13#7 → funct3Field w ≠ 0#3 → ∃ e, decode w = .error e) ∧
  (∀ (rd rs1 : RegIdx) (imm : Word) (s : State), ∃ t, exec (.addi rd rs1 imm) s = .next t ∧
    WroteBack rd (readReg s rs1 + imm) 0b110000100#9 s t)

/-- None of the five integer instructions reads or writes data memory or can fault; each ends with
`pc + 4`, and the engine is then Halted iff that is at or beyond the end (R109). -/
def Obligations.IntegerInstructionsOnlyCompute : Prop :=
  ∀ (rd rs1 rs2 : RegIdx) (imm : Word) (i : Instr),
    i ∈ [Instr.add rd rs1 rs2, .sub rd rs1 rs2, .and rd rs1 rs2, .or rd rs1 rs2, .addi rd rs1 imm] →
    ∀ s : State, ∃ t, exec i s = .next t ∧ t.dmem = s.dmem ∧ t.haltCause = s.haltCause ∧
      t.pc = s.pc + 4#32 ∧
      (∀ m : Memory, exec i { s with dmem := m } = .next { t with dmem := m }) ∧
      (s.haltCause = .none → (halted t = true ↔ s.imem.length ≤ (s.pc + 4#32).toNat / 4))

/-- With `rd = 0` the five integer instructions (41_integer_alu.md section 4), and `lw` at a valid address
(30_encoding.md section 5, R73), run in full: the flags are the kind's with RegWrite set, the `pc`
advances, no register changes, and `x[0]` is 0 after. That not even cell 0 changes is the spec's decision
D21 (log 6), that the address of `lw` is the wrapped sum its D14 (log 17). -/
def Obligations.DestinationZeroRunsInFull : Prop :=
  (∀ (rs1 rs2 : RegIdx) (imm : Word) (i : Instr),
    i ∈ [Instr.add 0 rs1 rs2, .sub 0 rs1 rs2, .and 0 rs1 rs2, .or 0 rs1 rs2, .addi 0 rs1 imm] →
    ∀ s : State, ∃ t, exec i s = .next t ∧ t.ctrl.regWrite = true ∧ readReg t 0 = 0#32 ∧
      t = { s with pc := s.pc + 4#32, ctrl := controlFlags (kindOf i) }) ∧
  (∀ (rs1 : RegIdx) (imm : Word) (s : State), validAddress s.cfg (readReg s rs1 + imm) = true →
    ∃ t, exec (.lw 0 rs1 imm) s = .next t ∧ t.ctrl.regWrite = true ∧
      t = { s with pc := s.pc + 4#32, ctrl := controlFlags .lw }) ∧
  (∀ s : State, decode 0x00000013#32 = .ok (.addi 0 0 0#32) ∧
    ∃ t, exec (.addi 0 0 0#32) s = .next t ∧
      t = { s with pc := s.pc + 4#32, ctrl := controlFlags .addi })

/-! ## Data memory, load and store -/

/-- Which data addresses are valid (R44): the signed test, the unsigned one, and the test on the sum
computed in unbounded integers agree, for every capacity the spec allows; an access at an invalid one
raises. At 4096 bytes: 0 to 4092. The agreements are the spec's own derivations; that the sum is the
wrapped one is its decision D14 (log 17), on which no verdict hangs. -/
def Obligations.ValidAddressReadings : Prop :=
  (∀ (c : Config) (addr : Word), c.Valid →
    (validAddress c addr = true ↔ (0 ≤ addr.toInt ∧ addr.toInt + 3 < (c.dmemBytes : Int))) ∧
    (validAddress c addr = true ↔ addr.toNat ≤ c.dmemBytes - 4)) ∧
  (∀ (c : Config) (base imm : Word), c.Valid → fitsImm12 imm →
    (validAddress c (base + imm) = true ↔
      (0 ≤ base.toInt + imm.toInt ∧ base.toInt + imm.toInt + 3 < (c.dmemBytes : Int)))) ∧
  (∀ (s : State) (addr v : Word), validAddress s.cfg addr = false →
    memRead s addr = .error .invalidMemoryAddress ∧
    memWrite s addr v = .error .invalidMemoryAddress) ∧
  (∀ addr : Word, validAddress {} addr = true ↔ addr.toNat ≤ 4092)

/-- `MemRead(addr, 4)` (R46): the four bytes little-endian, or the raise; and only `lw` reads data memory:
any other instruction gives the same over other data memory, but for that memory itself. -/
def Obligations.MemReadLittleEndian : Prop :=
  (∀ (s : State) (addr : Word),
    (validAddress s.cfg addr = true → ∃ v, memRead s addr = .ok v ∧
      ∀ j, j < 4 → v.extractLsb' (8 * j) 8 = Memory.read s.dmem (addr.toNat + j)) ∧
    (validAddress s.cfg addr = false → memRead s addr = .error .invalidMemoryAddress)) ∧
  (∀ (i : Instr) (s : State) (m : Memory), (∀ rd rs1 imm, i ≠ .lw rd rs1 imm) →
    ∃ t u, exec i s = .next t ∧ exec i { s with dmem := m } = .next u ∧ u = { t with dmem := u.dmem })

/-- `MemWrite(addr, 4, v)` (R47): on a valid address the four bytes little-endian, no other byte and
nothing else; on an invalid one nothing is written; and only `sw` writes data memory. -/
def Obligations.MemWriteAllOrNone : Prop :=
  (∀ (s : State) (addr v : Word), Memory.wf s.dmem = true →
    (validAddress s.cfg addr = true → ∃ t, memWrite s addr v = .ok t ∧
      (∀ j, j < 4 → Memory.read t.dmem (addr.toNat + j) = v.extractLsb' (8 * j) 8) ∧
      MemUnchangedOutside addr.toNat s t ∧ t = { s with dmem := t.dmem }) ∧
    (validAddress s.cfg addr = false → memWrite s addr v = .error .invalidMemoryAddress)) ∧
  (∀ (i : Instr) (s t : State), (∀ rs2 rs1 imm, i ≠ .sw rs2 rs1 imm) → exec i s = .next t →
    t.dmem = s.dmem)

/-- Round trip (R48): what is written is read back, and what is read at an address is not changed by a
write that overlaps none of its bytes, whether it is the first such write or any later one. -/
def Obligations.MemoryRoundTrip : Prop :=
  (∀ (s t : State) (a v : Word), Memory.wf s.dmem = true → memWrite s a v = .ok t →
    Memory.wf t.dmem = true ∧ memRead t a = .ok v) ∧
  (∀ (s t : State) (a v b w : Word), Memory.wf s.dmem = true → memRead s a = .ok v →
    memWrite s b w = .ok t → (a.toNat + 3 < b.toNat ∨ b.toNat + 3 < a.toNat) →
    Memory.wf t.dmem = true ∧ memRead t a = .ok v)

/-- `lw` at an address inside data memory completes: the four bytes little-endian into `rd`, `pc + 4`,
the flags and the frame (42_load_store.md section 2, the completing case; the wrapped sum is the spec's
decision D14, log 17). -/
def Obligations.LoadWordCompletes : Prop :=
  ∀ (rd rs1 : RegIdx) (imm : Word) (s : State), s.cfg.Valid →
    (readReg s rs1 + imm).toNat ≤ s.cfg.dmemBytes - 4 →
    ∃ t v, exec (.lw rd rs1 imm) s = .next t ∧ WroteBack rd v 0b110110100#9 s t ∧
      ∀ j, j < 4 →
        v.extractLsb' (8 * j) 8 = Memory.read s.dmem ((readReg s rs1 + imm).toNat + j)

/-- `lw` at any other address raises `InvalidMemoryAddress`: no register, memory or `pc` change, and the
engine is Halted. That the cause is latched with the `pc` kept is the spec's decision D5 (log 9), the
flags D6 (log 7). -/
def Obligations.LoadOutsideMemoryHalts : Prop :=
  ∀ (rd rs1 : RegIdx) (imm : Word) (s : State), s.cfg.Valid →
    s.cfg.dmemBytes - 4 < (readReg s rs1 + imm).toNat →
    ∃ t, exec (.lw rd rs1 imm) s = .next t ∧
      RaisedWith .invalidMemoryAddress 0b110110100#9 s t ∧ halted t = true

/-- `sw` at an address inside data memory completes: the four bytes of `x[rs2]` little-endian from the
effective address, every other byte and every register as before, `pc + 4` (42_load_store.md section 3;
two of its flags are the spec's decision D7, log 8). -/
def Obligations.StoreWordCompletes : Prop :=
  ∀ (rs2 rs1 : RegIdx) (imm : Word) (s : State), s.cfg.Valid → Memory.wf s.dmem = true →
    (effectiveAddress s rs1 imm).toNat ≤ s.cfg.dmemBytes - 4 →
    effectiveAddress s rs1 imm = readReg s rs1 + imm ∧
    ∃ t, exec (.sw rs2 rs1 imm) s = .next t ∧
      (∀ j, j < 4 → Memory.read t.dmem ((effectiveAddress s rs1 imm).toNat + j)
        = (readReg s rs2).extractLsb' (8 * j) 8) ∧
      MemUnchangedOutside (effectiveAddress s rs1 imm).toNat s t ∧ RegsUnchanged s t ∧
      t.pc = s.pc + 4#32 ∧ ctrlBits t.ctrl = 0b000001100#9 ∧ ProgramUnchanged s t ∧
      t.haltCause = s.haltCause

/-- `sw` at any other address raises `InvalidMemoryAddress` with no byte written (the spec's decisions D5,
D6, D7; logs 9, 7, 8). -/
def Obligations.StoreOutsideMemoryHalts : Prop :=
  ∀ (rs2 rs1 : RegIdx) (imm : Word) (s : State), s.cfg.Valid →
    s.cfg.dmemBytes - 4 < (readReg s rs1 + imm).toNat →
    ∃ t, exec (.sw rs2 rs1 imm) s = .next t ∧
      RaisedWith .invalidMemoryAddress 0b000001100#9 s t ∧ halted t = true

/-- A load after a store sees, byte by byte, the stored word where the two overlap and the old bytes
elsewhere (20_memory.md section 5, 42_load_store.md section 4). -/
def Obligations.LoadSeesStoreBytewise : Prop :=
  ∀ (rs2 rs1 rd rs1' : RegIdx) (imm imm' : Word) (s : State), Memory.wf s.dmem = true → rd ≠ 0 →
    validAddress s.cfg (effectiveAddress s rs1 imm) = true →
    validAddress s.cfg (effectiveAddress s rs1' imm') = true →
    ∃ t u, exec (.sw rs2 rs1 imm) s = .next t ∧ exec (.lw rd rs1' imm') t = .next u ∧
      ∀ j, j < 4 →
        (readReg u rd).extractLsb' (8 * j) 8 =
          if (effectiveAddress s rs1 imm).toNat ≤ (effectiveAddress s rs1' imm').toNat + j ∧
              (effectiveAddress s rs1' imm').toNat + j < (effectiveAddress s rs1 imm).toNat + 4 then
            (readReg s rs2).extractLsb'
              (8 * ((effectiveAddress s rs1' imm').toNat + j - (effectiveAddress s rs1 imm).toNat)) 8
          else Memory.read s.dmem ((effectiveAddress s rs1' imm').toNat + j)

/-- A store can never be seen by a later fetch (R53): no step changes instruction memory, the fetch does
not read data memory, and the program changes only by a load, which resets `pc` and registers. -/
def Obligations.FetchNeverSeesStores : Prop :=
  (∀ s t : State, step s = .next t → t.imem = s.imem) ∧
  (∀ (s : State) (m : Memory), fetch { s with dmem := m } = fetch s) ∧
  (∀ (s : State) (ws : List Word), (s.load ws).imem = ws ∧ (s.load ws).pc = 0#32 ∧
    ∀ r, readReg (s.load ws) r = 0#32)

/-- Of all steps only one that runs `sw` changes data memory, and only one that runs `lw` reads it: any
other instruction gives the same result over any other data memory (10_state.md section 3). -/
def Obligations.OnlyLoadStoreTouchMemory : Prop :=
  (∀ s t : State, step s = .next t → t.dmem ≠ s.dmem →
    ∃ w rs2 rs1 imm, fetch s = some w ∧ decode w = .ok (.sw rs2 rs1 imm)) ∧
  (∀ (i : Instr) (s : State) (m : Memory),
    (∀ rd rs1 imm, i ≠ .lw rd rs1 imm) → (∀ rs2 rs1 imm, i ≠ .sw rs2 rs1 imm) →
    ∃ t, exec i s = .next t ∧ exec i { s with dmem := m } = .next { t with dmem := m })

/-- A register changes in a step only when the step ran an instruction whose `rd` names it
(10_state.md section 1). -/
def Obligations.OnlyDestinationRegisterChanges : Prop :=
  ∀ (s t : State) (r : RegIdx), step s = .next t → readReg t r ≠ readReg s r →
    ∃ w i, fetch s = some w ∧ decode w = .ok i ∧ destination i = some r

/-! ## Program counter and branches -/

/-- `beq` completes whenever it is not taken or its target is a multiple of 4: the target from the
branch's own `pc` when the operands are equal, else `pc + 4`, and nothing else but the flags
(43_branch_pc.md section 2; the side condition is the spec's decision D8, log 10; two flags D7, log 8). -/
def Obligations.BeqCompletes : Prop :=
  ∀ (rs1 rs2 : RegIdx) (offset : Word) (s : State),
    (readReg s rs1 = readReg s rs2 → (s.pc + offset).toNat % 4 = 0) →
    ∃ t, exec (.beq rs1 rs2 offset) s = .next t ∧
      Branched (if readReg s rs1 = readReg s rs2 then s.pc + offset else s.pc + 4#32) s t

/-- `bne`, the same with the operands different (43_branch_pc.md section 2; D8, D7 as for `beq`). -/
def Obligations.BneCompletes : Prop :=
  ∀ (rs1 rs2 : RegIdx) (offset : Word) (s : State),
    (readReg s rs1 ≠ readReg s rs2 → (s.pc + offset).toNat % 4 = 0) →
    ∃ t, exec (.bne rs1 rs2 offset) s = .next t ∧
      Branched (if readReg s rs1 ≠ readReg s rs2 then s.pc + offset else s.pc + 4#32) s t

/-- A taken branch to a target that is no multiple of 4 raises `MisalignedBranchTarget`, changing only the
flags and the latch (the spec's decision D8, log 10; that the step writes the flags is its D6, log 7, and
two of them its D7, log 8). -/
def Obligations.MisalignedTakenBranchHalts : Prop :=
  ∀ (rs1 rs2 : RegIdx) (offset : Word) (s : State), (s.pc + offset).toNat % 4 ≠ 0 →
    (readReg s rs1 = readReg s rs2 → ∃ t, exec (.beq rs1 rs2 offset) s = .next t ∧
      RaisedWith .misalignedBranchTarget 0b001000001#9 s t ∧ halted t = true) ∧
    (readReg s rs1 ≠ readReg s rs2 → ∃ t, exec (.bne rs1 rs2 offset) s = .next t ∧
      RaisedWith .misalignedBranchTarget 0b001000001#9 s t ∧ halted t = true)

/-- With the `pc` a multiple of 4, whether a branch's target is one is a property of its word: bit 8
(43_branch_pc.md section 3; the spec's decision D8, log 10). -/
def Obligations.MisalignmentIsBitEight : Prop :=
  ∀ (w : Word) (s : State) (rs1 rs2 : RegIdx) (offset : Word), aligned s.pc = true →
    (decode w = .ok (.beq rs1 rs2 offset) ∨ decode w = .ok (.bne rs1 rs2 offset)) →
    (aligned (branchTarget s offset) = false ↔ w.getLsbD 8 = true)

/-- The `pc` after a step of a Ready engine: the completed instruction's next `pc`, or unchanged when the
step was rejected or faulted (43_branch_pc.md section 1; the spec's D5, D8, D9, logs 9, 10, 11). -/
def Obligations.NextPcOfStep : Prop :=
  ∀ s t : State, halted s = false → step s = .next t →
    (t.haltCause ≠ .none → t.pc = s.pc) ∧
    (t.haltCause = .none → ∃ w i, fetch s = some w ∧ decode w = .ok i ∧ t.pc = nextPcOf s i)

/-- A target of a taken `beq` or `bne` at or beyond the end is legal and halts the engine without a cause;
a backward offset past 0 wraps to at least 2^32 - 4096, beyond any program of at most 2^30 - 1024 words
(43_branch_pc.md section 3; the spec's decision D9, log 11). -/
def Obligations.TargetOutsideProgramEndsRun : Prop :=
  (∀ (i : Instr) (rs1 rs2 : RegIdx) (offset : Word) (s : State), s.haltCause = .none →
    (i = .beq rs1 rs2 offset ∧ readReg s rs1 = readReg s rs2) ∨
      (i = .bne rs1 rs2 offset ∧ readReg s rs1 ≠ readReg s rs2) →
    aligned (s.pc + offset) = true → 4 * s.imem.length ≤ (s.pc + offset).toNat →
    ∃ t, exec i s = .next t ∧ t.pc = s.pc + offset ∧ t.haltCause = .none ∧ halted t = true) ∧
  (∀ (offset : Word) (s : State), fitsBranchOffset offset → (s.pc.toNat : Int) + offset.toInt < 0 →
    2 ^ 32 - 4096 ≤ (s.pc + offset).toNat ∧
    (s.imem.length ≤ 2 ^ 30 - 1024 → 4 * s.imem.length ≤ (s.pc + offset).toNat))

/-- A taken branch to itself, a `beq` of equal or a `bne` of different registers with offset 0, runs
forever: after any number of steps the state is the same but for the flags of the first, and the engine
is Ready (43_branch_pc.md section 3, the non-terminating loop; two of the flags are the spec's decision
D7, log 8). -/
def Obligations.SelfBranchNeverEnds : Prop :=
  ∀ (s : State) (w : Word) (i : Instr) (rs1 rs2 : RegIdx), halted s = false → aligned s.pc = true →
    fetch s = some w → decode w = .ok i →
    (i = .beq rs1 rs2 0#32 ∧ readReg s rs1 = readReg s rs2) ∨
      (i = .bne rs1 rs2 0#32 ∧ readReg s rs1 ≠ readReg s rs2) →
    ∀ k, Host.Core.run Sys2Proof.core (k + 1) s = .next (setCtrl s (controlFlags (kindOf i))) ∧
      halted (setCtrl s (controlFlags (kindOf i))) = false

/-! ## The engine -/

/-- A step of a Ready engine runs the instruction its word decodes to, exactly `exec` of it, with nothing
added around it (44_cycle_engine.md section 1). -/
def Obligations.StepRunsDecodedInstruction : Prop :=
  ∀ (s : State) (w : Word) (i : Instr), halted s = false → aligned s.pc = true →
    fetch s = some w → decode w = .ok i → step s = exec i s

/-- Halted and Ready (44_cycle_engine.md section 1): the definition, the byte form of the end test, an
empty load halting at once, and that a step never leaves Halted while a load of a program does. That
every cause halts is the spec's decision D5, the unsigned test D9 (logs 9, 11). -/
def Obligations.HaltedCondition : Prop :=
  (∀ s : State, halted s = true ↔ (s.haltCause ≠ .none ∨ s.imem.length ≤ s.pc.toNat / 4)) ∧
  (∀ s : State, aligned s.pc = true →
    (s.imem.length ≤ s.pc.toNat / 4 ↔ 4 * s.imem.length ≤ s.pc.toNat)) ∧
  (∀ s : State, halted (s.load []) = true) ∧
  (∀ s : State, halted s = true → step s = .next s) ∧
  (∀ (s : State) (w : Word) (ws : List Word), halted (s.load (w :: ws)) = false)

/-- Once Halted, any number of further steps leaves everything as it is (the source's halting
monotonicity, 95_test_vectors.md S6). -/
def Obligations.HaltingMonotone : Prop :=
  ∀ (s : State) (k : Nat), halted s = true → Host.Core.run Sys2Proof.core k s = .next s

/-- A rejected word (60_exceptions.md section 1): a Ready engine's step raises `UnsupportedInstruction`
exactly when the word it fetches is rejected, and then changes nothing but the latch; that the flags
stay too is the spec's decision D6 (log 7). -/
def Obligations.UnsupportedInstructionRaised : Prop :=
  ∀ s t : State, halted s = false → aligned s.pc = true → step s = .next t →
    (t.haltCause = .unsupportedInstruction ↔ ∃ w e, fetch s = some w ∧ decode w = .error e) ∧
    (t.haltCause = .unsupportedInstruction →
      t = { s with haltCause := .unsupportedInstruction } ∧ halted t = true)

/-- The outcomes of one step (44_cycle_engine.md section 1): no-op; completed, the state being the one its
instruction gives; rejected, the word being one the decoder rejects; or faulted, the cause being the one
its kind of instruction can raise, on the condition it is raised for. Halted before the step and the latch
after it tell the four apart, and in every state of the invariant one of them happens. That a memory fault
keeps the `pc` and halts is the spec's decision D5, the snapshot after a raise D6, the flags printed as a
dash D7, the misaligned target D8, the wrapping `pc` D9 (logs 9, 7, 8, 10, 11). -/
def Obligations.StepOutcomes : Prop :=
  ∀ s : State, StateInv s → ∃ t, step s = .next t ∧
    ((halted s = true ∧ t = s) ∨
     (halted s = false ∧ t.haltCause = .none ∧ ∃ w i, fetch s = some w ∧ decode w = .ok i ∧
        exec i s = .next t ∧ t.ctrl = controlFlags (kindOf i) ∧ t.pc = nextPcOf s i) ∨
     (halted s = false ∧ halted t = true ∧ t = raise s .unsupportedInstruction ∧
        ∃ w e, fetch s = some w ∧ decode w = .error e) ∨
     (halted s = false ∧ halted t = true ∧ ∃ w i rs1 v, fetch s = some w ∧ decode w = .ok i ∧
        exec i s = .next t ∧
        ((t = raise (setCtrl s (controlFlags (kindOf i))) .invalidMemoryAddress ∧
            ((∃ rd, i = .lw rd rs1 v) ∨ (∃ rs2, i = .sw rs2 rs1 v)) ∧
            validAddress s.cfg (effectiveAddress s rs1 v) = false) ∨
         (t = raise (setCtrl s (controlFlags (kindOf i))) .misalignedBranchTarget ∧
            ((∃ rs2, i = .beq rs1 rs2 v ∧ readReg s rs1 = readReg s rs2) ∨
              (∃ rs2, i = .bne rs1 rs2 v ∧ readReg s rs1 ≠ readReg s rs2)) ∧
            aligned (branchTarget s v) = false))))

/-- The blocks wired by the control flags do, in every state, exactly what the instruction rules do
(40_decode_control.md section 4: the datapath equations reproduce the semantics for every kind). The
flags' meanings are the textbook's, as the spec marks (G3, log 13). -/
def Obligations.DatapathEqualsStep : Prop :=
  ∀ s : State, datapathCycle s = step s

/-- No step depends on the snapshot of an earlier one: two states that differ in `ctrl` only give steps
that differ in `ctrl` only (10_state.md section 5). -/
def Obligations.ControlSnapshotIsOutputOnly : Prop :=
  ∀ (s : State) (c : ControlSignals), blankCtrl (step (setCtrl s c)) = blankCtrl (step s)

/-! ## Invariants and reset -/

/-- Every step keeps the invariants of R36 (10_state.md section 8): configuration, register 0, aligned
`pc`, program size, canonical data memory within its capacity, and a latched cause explained by the
instruction at the `pc`. They rest on the spec's D5, D8, D21 (logs 9, 10, 6) and on this model's list
form of data memory (log 18). -/
def Obligations.StepKeepsInvariants : Prop :=
  ∀ s t : State, StateInv s → step s = .next t → StateInv t

/-- Power-on, with any configuration of R8, and reset meet the invariants (the values by the spec's D11,
log 3). -/
def Obligations.PowerOnMeetsInvariants : Prop :=
  StateInv State.reset ∧ ∀ c : Config, c.Valid → StateInv (State.powerOn c)

/-- Every state the host can reach meets the invariants, never makes a step fault or refuse, and once
Halted stays (10_state.md section 8). The invariant rests on the spec's decisions D5, D8, D21 (logs 9, 10,
6), the state at power-on on D11 (log 3), its form and the events on this model's logs 5, 16, 18, 22, 23. -/
def Obligations.ReachableStatesMeetInvariants : Prop :=
  ∀ s : State, Reachable s → StateInv s ∧ (∃ t, step s = .next t) ∧
    (halted s = true → step s = .next s)

/-- A program load within `IMEM_WORDS_MAX` is accepted and keeps the invariants; a longer list is refused
(the refusal is this model's choice, log 16; the invariant is that of `StepKeepsInvariants`, and the load
clears the latch by the spec's decision D5, log 9). -/
def Obligations.LoadKeepsInvariants : Prop :=
  ∀ (s : State) (ws : List Word), StateInv s →
    (ws.length ≤ s.cfg.imemWordsMax →
      hostEvent (.load ws) s = .next (s.load ws) ∧ StateInv (s.load ws)) ∧
    (s.cfg.imemWordsMax < ws.length → hostEvent (.load ws) s = .refused .programTooLong)

/-- The state after reset: the spec's power-on values with the default parameters (70_reset_and_hazards.md
section 1; all but data memory are the spec's decision D11, logs 3 and 7); Halted, and a step is a no-op. -/
def Obligations.ResetState : Prop :=
  State.reset.cfg = ⟨4096, false, 2 ^ 30⟩ ∧ (∀ r, readReg State.reset r = 0#32) ∧
  State.reset.pc = 0#32 ∧ (∀ a, Memory.read State.reset.dmem a = 0#8) ∧ State.reset.imem = [] ∧
  ctrlBits State.reset.ctrl = 0#9 ∧ State.reset.haltCause = .none ∧ halted State.reset = true ∧
  step State.reset = .next State.reset

/-- A program load (70_reset_and_hazards.md section 1): the program, `pc`, registers, flags and latch, and
data memory kept unless `CLEAR_DMEM_ON_LOAD`; Ready iff the program is not empty. The cleared flags and
latch are the spec's decisions D6 and D5 (logs 7 and 9). -/
def Obligations.ProgramLoadState : Prop :=
  ∀ (s : State) (ws : List Word),
    (s.load ws).imem = ws ∧ (s.load ws).pc = 0#32 ∧ (∀ r, readReg (s.load ws) r = 0#32) ∧
    ctrlBits (s.load ws).ctrl = 0#9 ∧ (s.load ws).haltCause = .none ∧ (s.load ws).cfg = s.cfg ∧
    (s.cfg.clearDmemOnLoad = false → (s.load ws).dmem = s.dmem) ∧
    (s.cfg.clearDmemOnLoad = true → ∀ a, Memory.read (s.load ws).dmem a = 0#8) ∧
    (halted (s.load ws) = false ↔ ws ≠ [])

/-! ## Run, report, display, loader -/

/-- `runToCompletion` is repeated `step` and nothing more: with any fuel it reaches what that many steps
reach (44_cycle_engine.md section 2; the fuel is this model's, log 24). -/
def Obligations.RunIsRepeatedStep : Prop :=
  ∀ (fuel : Nat) (s : State), runToCompletion fuel s = Host.Core.run Sys2Proof.core fuel s

/-- The ways a run ends (44_cycle_engine.md section 2): in the invariant's states a run has ended exactly
when the engine is Halted, and the end is successful exactly when there is no cause and the `pc` is at or
beyond the end. What counts as successful is the spec's decision D18 (log 27). -/
def Obligations.RunEndClassification : Prop :=
  ∀ s : State, StateInv s →
    (halted s = true ↔ ∃ e, runEnd s = some e) ∧
    (SuccessfulEnd s ↔ s.haltCause = .none ∧ 4 * s.imem.length ≤ s.pc.toNat) ∧
    (runEnd s = some .unsupportedInstruction ↔ s.haltCause = .unsupportedInstruction) ∧
    (runEnd s = some .invalidMemoryAddress ↔ s.haltCause = .invalidMemoryAddress) ∧
    (runEnd s = some .misalignedBranchTarget ↔ s.haltCause = .misalignedBranchTarget)

/-- The report of a step (44_cycle_engine.md section 4; its content is the spec's decision D16, log 27; that
the latch holds the cause D5 and D8, logs 9 and 10): none from a Halted engine or a completed step, else
the cause, the `pc`, the word, and the word, address or target as `info`. -/
def Obligations.StepReports : Prop :=
  ∀ s t : State, StateInv s → step s = .next t →
    (halted s = true → stepReport s = none) ∧
    (halted s = false → t.haltCause = .none → stepReport s = none) ∧
    (halted s = false → t.haltCause ≠ .none → ∃ w info, fetch s = some w ∧
      stepReport s = some ⟨t.haltCause, s.pc, w, info⟩ ∧
      (t.haltCause = .unsupportedInstruction → info = w) ∧
      (t.haltCause = .misalignedBranchTarget → info = s.pc + immBOf w) ∧
      (t.haltCause = .invalidMemoryAddress →
        (∃ rd rs1 imm, decode w = .ok (.lw rd rs1 imm) ∧ info = readReg s rs1 + imm) ∨
        (∃ rs2 rs1 imm, decode w = .ok (.sw rs2 rs1 imm) ∧ info = readReg s rs1 + imm)))

/-- The display's memory view (44_cycle_engine.md section 4, item (c)): exactly the non-zero words at
multiples of 4 within data memory, with their addresses. -/
def Obligations.DisplayMemoryWords : Prop :=
  ∀ (s : State) (a : Nat) (v : Word), (a, v) ∈ displayMemory s ↔
    (a % 4 = 0 ∧ a + 4 ≤ s.cfg.dmemBytes ∧ v = readWord s.dmem a ∧ v ≠ 0#32)

/-- A program line (70_reset_and_hazards.md section 1): a word exactly when its trimmed text is 32 binary
digits, and then bit 31 - k is the k-th character (the order is the spec's decision D13, log 14). -/
def Obligations.ProgramLineParsed : Prop :=
  ∀ line : List Char,
    ((∃ w, parseLine line = some w) ↔
      ((trimLine line).length = 32 ∧ ∀ c ∈ trimLine line, c = '0' ∨ c = '1')) ∧
    (∀ w, parseLine line = some w → ∀ k, k < 32 →
      w.getLsbD (31 - k) = ((trimLine line)[k]? == some '1'))

/-- The display's characters of a word, loaded as a program line, give the word back: the two use one
order (70_reset_and_hazards.md section 1; D13, log 14). -/
def Obligations.LineOfWordRoundTrip : Prop :=
  ∀ w : Word, parseLine (wordDigits w) = some w

/-- A malformed line is left out and nothing else: appending texts appends their words, so a word's index
is its rank among the well-formed lines (70_reset_and_hazards.md section 1). -/
def Obligations.MalformedLinesExcluded : Prop :=
  ∀ (before after : List (List Char)) (line : List Char),
    (∀ w, parseLine line = some w →
      (parseProgram (before ++ line :: after))[(before.filter (fun l => (parseLine l).isSome)).length]?
        = some w) ∧
    (parseLine line = none →
      parseProgram (before ++ line :: after) = parseProgram (before ++ after))
end

