-- ==== Sys2Proof/Laws/Decode.lean ====
section
/-! SUPPORT. The fields of an encoded word, one lemma per format and field, the sign extensions, and
what the classification can answer. -/

namespace Sys2Proof

/-! ## Register fields -/

@[simp] theorem regOfBits_bitsOfReg (r : RegIdx) : regOfBits (bitsOfReg r) = r := by
  apply Fin.ext
  simp [regOfBits, bitsOfReg]

@[simp] theorem bitsOfReg_regOfBits (b : BitVec 5) : bitsOfReg (regOfBits b) = b := by
  apply BitVec.eq_of_toNat_eq
  simp [regOfBits, bitsOfReg]

/-! ## Fields of an encoded word (R62 to R65) -/

section FieldsOfR
variable (f7 : BitVec 7) (rs2 rs1 : RegIdx) (f3 : BitVec 3) (rd : RegIdx) (op : BitVec 7)

/-- The bits of a word of format R, as the concatenation they are. -/
theorem getLsbD_encodeR (j : Nat) : (encodeR f7 rs2 rs1 f3 rd op).getLsbD j =
    (f7 ++ bitsOfReg rs2 ++ bitsOfReg rs1 ++ f3 ++ bitsOfReg rd ++ op).getLsbD j := rfl

@[simp] theorem opcodeField_encodeR : opcodeField (encodeR f7 rs2 rs1 f3 rd op) = op := by
  apply BitVec.eq_of_getLsbD_eq; intro i hi
  simp only [opcodeField, BitVec.getLsbD_extractLsb', getLsbD_encodeR, BitVec.getLsbD_append]
  interval_cases i <;> simp

@[simp] theorem rdField_encodeR : rdField (encodeR f7 rs2 rs1 f3 rd op) = bitsOfReg rd := by
  apply BitVec.eq_of_getLsbD_eq; intro i hi
  simp only [rdField, BitVec.getLsbD_extractLsb', getLsbD_encodeR, BitVec.getLsbD_append]
  interval_cases i <;> simp

@[simp] theorem funct3Field_encodeR : funct3Field (encodeR f7 rs2 rs1 f3 rd op) = f3 := by
  apply BitVec.eq_of_getLsbD_eq; intro i hi
  simp only [funct3Field, BitVec.getLsbD_extractLsb', getLsbD_encodeR, BitVec.getLsbD_append]
  interval_cases i <;> simp

@[simp] theorem rs1Field_encodeR : rs1Field (encodeR f7 rs2 rs1 f3 rd op) = bitsOfReg rs1 := by
  apply BitVec.eq_of_getLsbD_eq; intro i hi
  simp only [rs1Field, BitVec.getLsbD_extractLsb', getLsbD_encodeR, BitVec.getLsbD_append]
  interval_cases i <;> simp

@[simp] theorem rs2Field_encodeR : rs2Field (encodeR f7 rs2 rs1 f3 rd op) = bitsOfReg rs2 := by
  apply BitVec.eq_of_getLsbD_eq; intro i hi
  simp only [rs2Field, BitVec.getLsbD_extractLsb', getLsbD_encodeR, BitVec.getLsbD_append]
  interval_cases i <;> simp

@[simp] theorem funct7Field_encodeR : funct7Field (encodeR f7 rs2 rs1 f3 rd op) = f7 := by
  apply BitVec.eq_of_getLsbD_eq; intro i hi
  simp only [funct7Field, BitVec.getLsbD_extractLsb', getLsbD_encodeR, BitVec.getLsbD_append]
  interval_cases i <;> simp

end FieldsOfR

section FieldsOfI
variable (imm : Word) (rs1 : RegIdx) (f3 : BitVec 3) (rd : RegIdx) (op : BitVec 7)

/-- The bits of a word of format I, as the concatenation they are. -/
theorem getLsbD_encodeI (j : Nat) : (encodeI imm rs1 f3 rd op).getLsbD j =
    (imm.extractLsb' 0 12 ++ bitsOfReg rs1 ++ f3 ++ bitsOfReg rd ++ op).getLsbD j := rfl

@[simp] theorem opcodeField_encodeI : opcodeField (encodeI imm rs1 f3 rd op) = op := by
  apply BitVec.eq_of_getLsbD_eq; intro i hi
  simp only [opcodeField, BitVec.getLsbD_extractLsb', getLsbD_encodeI, BitVec.getLsbD_append]
  interval_cases i <;> simp

@[simp] theorem rdField_encodeI : rdField (encodeI imm rs1 f3 rd op) = bitsOfReg rd := by
  apply BitVec.eq_of_getLsbD_eq; intro i hi
  simp only [rdField, BitVec.getLsbD_extractLsb', getLsbD_encodeI, BitVec.getLsbD_append]
  interval_cases i <;> simp

@[simp] theorem funct3Field_encodeI : funct3Field (encodeI imm rs1 f3 rd op) = f3 := by
  apply BitVec.eq_of_getLsbD_eq; intro i hi
  simp only [funct3Field, BitVec.getLsbD_extractLsb', getLsbD_encodeI, BitVec.getLsbD_append]
  interval_cases i <;> simp

@[simp] theorem rs1Field_encodeI : rs1Field (encodeI imm rs1 f3 rd op) = bitsOfReg rs1 := by
  apply BitVec.eq_of_getLsbD_eq; intro i hi
  simp only [rs1Field, BitVec.getLsbD_extractLsb', getLsbD_encodeI, BitVec.getLsbD_append]
  interval_cases i <;> simp

/-- The 12 immediate bits of format I. -/
theorem immBits_encodeI :
    (encodeI imm rs1 f3 rd op).extractLsb' 20 12 = imm.extractLsb' 0 12 := by
  apply BitVec.eq_of_getLsbD_eq; intro i hi
  simp only [BitVec.getLsbD_extractLsb', getLsbD_encodeI, BitVec.getLsbD_append]
  interval_cases i <;> simp

end FieldsOfI

section FieldsOfS
variable (imm : Word) (rs2 rs1 : RegIdx) (f3 : BitVec 3) (op : BitVec 7)

/-- The bits of a word of format S, as the concatenation they are. -/
theorem getLsbD_encodeS (j : Nat) : (encodeS imm rs2 rs1 f3 op).getLsbD j =
    (imm.extractLsb' 5 7 ++ bitsOfReg rs2 ++ bitsOfReg rs1 ++ f3 ++ imm.extractLsb' 0 5 ++ op).getLsbD j := rfl

@[simp] theorem opcodeField_encodeS : opcodeField (encodeS imm rs2 rs1 f3 op) = op := by
  apply BitVec.eq_of_getLsbD_eq; intro i hi
  simp only [opcodeField, BitVec.getLsbD_extractLsb', getLsbD_encodeS, BitVec.getLsbD_append]
  interval_cases i <;> simp

@[simp] theorem funct3Field_encodeS : funct3Field (encodeS imm rs2 rs1 f3 op) = f3 := by
  apply BitVec.eq_of_getLsbD_eq; intro i hi
  simp only [funct3Field, BitVec.getLsbD_extractLsb', getLsbD_encodeS, BitVec.getLsbD_append]
  interval_cases i <;> simp

@[simp] theorem rs1Field_encodeS : rs1Field (encodeS imm rs2 rs1 f3 op) = bitsOfReg rs1 := by
  apply BitVec.eq_of_getLsbD_eq; intro i hi
  simp only [rs1Field, BitVec.getLsbD_extractLsb', getLsbD_encodeS, BitVec.getLsbD_append]
  interval_cases i <;> simp

@[simp] theorem rs2Field_encodeS : rs2Field (encodeS imm rs2 rs1 f3 op) = bitsOfReg rs2 := by
  apply BitVec.eq_of_getLsbD_eq; intro i hi
  simp only [rs2Field, BitVec.getLsbD_extractLsb', getLsbD_encodeS, BitVec.getLsbD_append]
  interval_cases i <;> simp

/-- The 12 immediate bits of format S. -/
theorem immBits_encodeS :
    ((encodeS imm rs2 rs1 f3 op).extractLsb' 25 7 ++ (encodeS imm rs2 rs1 f3 op).extractLsb' 7 5
      : BitVec 12) = imm.extractLsb' 0 12 := by
  apply BitVec.eq_of_getLsbD_eq; intro i hi
  simp only [BitVec.getLsbD_extractLsb', getLsbD_encodeS, BitVec.getLsbD_append]
  interval_cases i <;> simp

end FieldsOfS

section FieldsOfB
variable (imm : Word) (rs2 rs1 : RegIdx) (f3 : BitVec 3) (op : BitVec 7)

/-- The bits of a word of format B, as the concatenation they are. -/
theorem getLsbD_encodeB (j : Nat) : (encodeB imm rs2 rs1 f3 op).getLsbD j =
    (imm.extractLsb' 12 1 ++ imm.extractLsb' 5 6 ++ bitsOfReg rs2 ++ bitsOfReg rs1 ++ f3
      ++ imm.extractLsb' 1 4 ++ imm.extractLsb' 11 1 ++ op).getLsbD j := rfl

@[simp] theorem opcodeField_encodeB : opcodeField (encodeB imm rs2 rs1 f3 op) = op := by
  apply BitVec.eq_of_getLsbD_eq; intro i hi
  simp only [opcodeField, BitVec.getLsbD_extractLsb', getLsbD_encodeB, BitVec.getLsbD_append]
  interval_cases i <;> simp

@[simp] theorem funct3Field_encodeB : funct3Field (encodeB imm rs2 rs1 f3 op) = f3 := by
  apply BitVec.eq_of_getLsbD_eq; intro i hi
  simp only [funct3Field, BitVec.getLsbD_extractLsb', getLsbD_encodeB, BitVec.getLsbD_append]
  interval_cases i <;> simp

@[simp] theorem rs1Field_encodeB : rs1Field (encodeB imm rs2 rs1 f3 op) = bitsOfReg rs1 := by
  apply BitVec.eq_of_getLsbD_eq; intro i hi
  simp only [rs1Field, BitVec.getLsbD_extractLsb', getLsbD_encodeB, BitVec.getLsbD_append]
  interval_cases i <;> simp

@[simp] theorem rs2Field_encodeB : rs2Field (encodeB imm rs2 rs1 f3 op) = bitsOfReg rs2 := by
  apply BitVec.eq_of_getLsbD_eq; intro i hi
  simp only [rs2Field, BitVec.getLsbD_extractLsb', getLsbD_encodeB, BitVec.getLsbD_append]
  interval_cases i <;> simp

/-- The 13 immediate bits of format B, bit 0 being the constant 0 (R65, R68). -/
theorem immBits_encodeB (h : imm.getLsbD 0 = false) :
    ((encodeB imm rs2 rs1 f3 op).extractLsb' 31 1 ++ (encodeB imm rs2 rs1 f3 op).extractLsb' 7 1
      ++ (encodeB imm rs2 rs1 f3 op).extractLsb' 25 6 ++ (encodeB imm rs2 rs1 f3 op).extractLsb' 8 4
      ++ 0#1 : BitVec 13) = imm.extractLsb' 0 13 := by
  apply BitVec.eq_of_getLsbD_eq; intro i hi
  simp only [BitVec.getLsbD_extractLsb', getLsbD_encodeB, BitVec.getLsbD_append]
  interval_cases i <;> simp_all

end FieldsOfB

/-! ## Sign extension (R11) -/

/-- A value in the range of `n` signed bits is the sign extension of its low `n` bits. -/
theorem signExtend_low (n : Nat) (hn : 0 < n) (v : Word)
    (hlo : -(2 ^ (n - 1) : Int) ≤ v.toInt) (hhi : v.toInt < 2 ^ (n - 1)) (h32 : n ≤ 32) :
    (v.extractLsb' 0 n).signExtend 32 = v := by
  apply BitVec.eq_of_toInt_eq
  have h1 : v.extractLsb' 0 n = v.setWidth n := by
    apply BitVec.eq_of_getLsbD_eq; intro i hi; simp [hi]
  have h2 : ((v.toNat : Int)).bmod (2 ^ n) = v.toInt := by
    have : (v.toNat : Int) % (2 ^ n : Nat) = v.toInt % (2 ^ n : Nat) := by
      have hd : ((2 ^ n : Nat) : Int) ∣ (2 ^ 32 : Nat) := by
        exact_mod_cast Nat.pow_dvd_pow 2 h32
      rw [BitVec.toInt_eq_toNat_bmod, Int.bmod_def]
      split
      · exact (Int.emod_emod_of_dvd _ hd).symm
      · rw [Int.sub_emod, Int.emod_emod_of_dvd _ hd, Int.emod_eq_zero_of_dvd hd]
        simp
    rw [← Int.emod_bmod, this, Int.emod_bmod]
    obtain ⟨m, rfl⟩ : ∃ m, n = m + 1 := ⟨n - 1, by omega⟩
    simp only [Nat.add_sub_cancel] at hlo hhi
    apply Int.bmod_eq_of_le <;> (push_cast [pow_succ]; omega)
  rw [BitVec.toInt_signExtend_of_le h32, h1, BitVec.toInt_setWidth, h2]

/-- R66, R67: a 12-bit operand is the sign extension of its low 12 bits. -/
theorem signExtend_imm12 (v : Word) (h : fitsImm12 v) : (v.extractLsb' 0 12).signExtend 32 = v :=
  signExtend_low 12 (by decide) v (by norm_num; exact h.1) (by norm_num; have := h.2; omega) (by decide)

/-- R68: a branch offset is the sign extension of its low 13 bits. -/
theorem signExtend_branchOffset (v : Word) (h : fitsBranchOffset v) :
    (v.extractLsb' 0 13).signExtend 32 = v :=
  signExtend_low 13 (by decide) v (by norm_num; exact h.1) (by norm_num; have := h.2.1; omega)
    (by decide)

/-- Every immI and immS fits R75's range. -/
theorem fitsImm12_signExtend (x : BitVec 12) : fitsImm12 (x.signExtend 32) := by
  have h1 := BitVec.toInt_signExtend_of_le (x := x) (show 12 ≤ 32 by decide)
  have h2 := BitVec.le_toInt x
  have h3 := BitVec.toInt_lt (x := x)
  norm_num at h2 h3
  unfold fitsImm12
  omega

/-! ## What the classification and the decoder can answer -/

/-- Every way the control unit accepts (R83). -/
theorem classify_ok (op : BitVec 7) (f3 : BitVec 3) (f7 : BitVec 7) (k : Kind)
    (h : classify op f3 f7 = .ok k) :
    (op = 0x33#7 ∧
      ((f3 = 0#3 ∧ f7 = 0x00#7 ∧ k = .rtype .add) ∨ (f3 = 0#3 ∧ f7 = 0x20#7 ∧ k = .rtype .sub) ∨
       (f3 = 7#3 ∧ f7 = 0x00#7 ∧ k = .rtype .and) ∨ (f3 = 6#3 ∧ f7 = 0x00#7 ∧ k = .rtype .or))) ∨
    (op = 0x13#7 ∧ f3 = 0#3 ∧ k = .addi) ∨ (op = 0x03#7 ∧ f3 = 2#3 ∧ k = .lw) ∨
    (op = 0x23#7 ∧ f3 = 2#3 ∧ k = .sw) ∨ (op = 0x63#7 ∧ f3 = 0#3 ∧ k = .beq) ∨
    (op = 0x63#7 ∧ f3 = 1#3 ∧ k = .bne) := by
  unfold classify at h
  (repeat' split at h) <;> simp_all

/-- A decoded word is its kind assembled with its fields. -/
theorem decode_ok (w : Word) (i : Instr) (h : decode w = .ok i) :
    ∃ k, classify (opcodeField w) (funct3Field w) (funct7Field w) = .ok k ∧
      i = assemble k (decodeFields w) := by
  unfold decode at h
  change (match classify (opcodeField w) (funct3Field w) (funct7Field w) with
    | .ok k => Except.ok (assemble k (decodeFields w))
    | .error e => Except.error e) = _ at h
  split at h
  · rename_i k hk
    exact ⟨k, hk, by cases h; rfl⟩
  · cases h

/-- A rejected word is rejected by the classification, under the same class. -/
theorem decode_error_iff (w : Word) (e : Reject) :
    decode w = .error e ↔
      classify (opcodeField w) (funct3Field w) (funct7Field w) = .error e := by
  unfold decode
  change (match classify (opcodeField w) (funct3Field w) (funct7Field w) with
    | .ok k => Except.ok (assemble k (decodeFields w))
    | .error e => Except.error e) = _ ↔ _
  split <;> simp_all

end Sys2Proof
end

