-- ==== Sys2Proof/Laws/Memory.lean ====
section
/-! SUPPORT. Data memory: reading after writing, and that every memory operation keeps the canonical
form and the capacity. -/

namespace Sys2Proof.Machine

@[simp] theorem Memory.read_nil (a : Nat) : Memory.read [] a = unlistedByte := rfl

/-- A canonical memory whose entries all lie above `a` reads the unlisted byte there. -/
theorem Memory.read_below (m : Memory) (a : Nat) (h : ∀ c ∈ m, a < c.1) :
    Memory.read m a = unlistedByte := by
  induction m with
  | nil => rfl
  | cons c m ih =>
    have h1 : a < c.1 := h c (by simp)
    have h2 := ih (fun d hd => h d (by simp [hd]))
    simp [Memory.read, h2]
    omega

/-- The canonical form of a listed memory, entry by entry. -/
theorem Memory.wf_cons (k : Nat) (b : Byte) (m : Memory) :
    Memory.wf ((k, b) :: m) = true ↔
      b ≠ unlistedByte ∧ (∀ c ∈ m, k < c.1) ∧ Memory.wf m = true := by
  simp [Memory.wf, and_assoc]

/-- Read after write: the written address gives the value, every other address reads as before. -/
theorem Memory.read_write (m : Memory) (a b : Nat) (v : Byte) (h : Memory.wf m = true) :
    Memory.read (Memory.write m a v) b = if b = a then v else Memory.read m b := by
  induction m with
  | nil =>
    by_cases hv : v = unlistedByte <;> by_cases hb : b = a <;>
      simp [Memory.write, Memory.read, hv, hb, eq_comm (a := a)]
  | cons c m ih =>
    obtain ⟨k, d⟩ := c
    obtain ⟨_, hk, hm⟩ := (Memory.wf_cons k d m).mp h
    have ih := ih hm
    unfold Memory.write
    by_cases hlt : a < k
    · have hun : ∀ c ∈ (k, d) :: m, a < c.1 := by
        intro c hc
        rcases List.mem_cons.mp hc with rfl | hc
        · exact hlt
        · exact lt_trans hlt (hk c hc)
      have hbelow := Memory.read_below _ a hun
      by_cases hv : v = unlistedByte
      · by_cases hb : b = a
        · subst hb; simp [hlt, hv, hbelow]
        · simp [hlt, hv, hb]
      · by_cases hb : b = a
        · subst hb; simp [hlt, hv, Memory.read]
        · simp [hlt, hv, hb, Memory.read, Ne.symm hb]
    · by_cases heq : a = k
      · subst heq
        have hbelow := Memory.read_below m a hk
        by_cases hv : v = unlistedByte
        · by_cases hb : b = a
          · subst hb; simp [hv, hbelow]
          · simp [hv, hb, Memory.read, Ne.symm hb]
        · by_cases hb : b = a
          · subst hb; simp [hv, Memory.read]
          · simp [hv, hb, Memory.read, Ne.symm hb]
      · by_cases hb : k = b
        · subst hb; simp [hlt, heq, Memory.read, Ne.symm heq]
        · simp [hlt, heq, Memory.read, hb, ih]

/-- A write adds no address but the one written. -/
theorem Memory.mem_write (m : Memory) (a : Nat) (v : Byte) (c : Host.Cell)
    (h : c ∈ Memory.write m a v) : c.1 = a ∨ c ∈ m := by
  induction m with
  | nil =>
    unfold Memory.write at h
    split at h <;> simp_all
  | cons d m ih =>
    unfold Memory.write at h
    (repeat' split at h) <;> simp_all
    · rcases h with h | h <;> simp_all
    · rcases h with h | h <;> simp_all
    · tauto

/-- Every write keeps the canonical form. -/
theorem Memory.wf_write (m : Memory) (a : Nat) (v : Byte) (h : Memory.wf m = true) :
    Memory.wf (Memory.write m a v) = true := by
  induction m with
  | nil => unfold Memory.write; split <;> simp_all [Memory.wf]
  | cons c m ih =>
    obtain ⟨k, d⟩ := c
    obtain ⟨hd, hk, hm⟩ := (Memory.wf_cons k d m).mp h
    unfold Memory.write
    by_cases hlt : a < k
    · by_cases hv : v = unlistedByte
      · simpa [hlt, hv] using h
      · have : ∀ c ∈ (k, d) :: m, a < c.1 := by
          intro c hc
          rcases List.mem_cons.mp hc with rfl | hc
          · exact hlt
          · exact lt_trans hlt (hk c hc)
        simpa [hlt, hv] using (Memory.wf_cons a v _).mpr ⟨hv, this, h⟩
    · by_cases heq : a = k
      · subst heq
        by_cases hv : v = unlistedByte
        · simpa [hv] using hm
        · simpa [hv] using (Memory.wf_cons a v m).mpr ⟨hv, hk, hm⟩
      · have hkt : ∀ c ∈ Memory.write m a v, k < c.1 := by
          intro c hc
          rcases Memory.mem_write m a v c hc with h1 | h1
          · omega
          · exact hk c h1
        simpa [hlt, heq] using (Memory.wf_cons k d _).mpr ⟨hd, hkt, ih hm⟩

theorem Memory.within_iff (n : Nat) (m : Memory) :
    Memory.within n m = true ↔ ∀ c ∈ m, c.1 < n := by
  simp [Memory.within]

/-- A write below the capacity keeps every listed address below it. -/
theorem Memory.within_write (n : Nat) (m : Memory) (a : Nat) (v : Byte) (ha : a < n)
    (h : Memory.within n m = true) : Memory.within n (Memory.write m a v) = true := by
  rw [Memory.within_iff] at *
  intro c hc
  rcases Memory.mem_write m a v c hc with h1 | h1
  · omega
  · exact h c h1

/-! ## Words -/

/-- A word write keeps the canonical form. -/
theorem writeWord_wf (m : Memory) (a : Nat) (v : Word) (h : Memory.wf m = true) :
    Memory.wf (writeWord m a v) = true :=
  Memory.wf_write _ _ _ (Memory.wf_write _ _ _ (Memory.wf_write _ _ _ (Memory.wf_write _ _ _ h)))

/-- A word write inside the capacity keeps it. -/
theorem writeWord_within (n : Nat) (m : Memory) (a : Nat) (v : Word) (ha : a + 3 < n)
    (h : Memory.within n m = true) : Memory.within n (writeWord m a v) = true := by
  unfold writeWord
  exact Memory.within_write _ _ _ _ (by omega) (Memory.within_write _ _ _ _ (by omega)
    (Memory.within_write _ _ _ _ (by omega) (Memory.within_write _ _ _ _ (by omega) h)))

/-- Everything a word write can do, byte by byte (R42, R47). -/
theorem read_writeWord (m : Memory) (a b : Nat) (v : Word) (h : Memory.wf m = true) :
    Memory.read (writeWord m a v) b =
      if b = a then v.extractLsb' 0 8
      else if b = a + 1 then v.extractLsb' 8 8
      else if b = a + 2 then v.extractLsb' 16 8
      else if b = a + 3 then v.extractLsb' 24 8
      else Memory.read m b := by
  have h0 := Memory.wf_write m a (v.extractLsb' 0 8) h
  have h1 := Memory.wf_write _ (a + 1) (v.extractLsb' 8 8) h0
  have h2 := Memory.wf_write _ (a + 2) (v.extractLsb' 16 8) h1
  unfold writeWord
  rw [Memory.read_write _ _ _ _ h2, Memory.read_write _ _ _ _ h1, Memory.read_write _ _ _ _ h0,
    Memory.read_write _ _ _ _ h]
  by_cases e0 : b = a
  · subst e0; simp
  · by_cases e1 : b = a + 1
    · subst e1; simp
    · by_cases e2 : b = a + 2
      · subst e2; simp
      · simp [e0, e1, e2]

/-- The four bytes of a word put back together. -/
theorem word_of_bytes (v : Word) :
    v.extractLsb' 24 8 ++ v.extractLsb' 16 8 ++ v.extractLsb' 8 8 ++ v.extractLsb' 0 8 = v := by
  apply BitVec.eq_of_getLsbD_eq
  intro i hi
  simp only [BitVec.getLsbD_append, BitVec.getLsbD_extractLsb']
  rcases Nat.lt_or_ge i 8 with h1 | h1
  · simp [h1]
  rcases Nat.lt_or_ge i 16 with h2 | h2
  · simp [show ¬ i < 8 by omega, show i - 8 < 8 by omega, show 8 + (i - 8) = i by omega]
  rcases Nat.lt_or_ge i 24 with h3 | h3
  · simp [show ¬ i < 8 by omega, show ¬ i - 8 < 8 by omega, show i - 8 - 8 < 8 by omega,
      show 16 + (i - 8 - 8) = i by omega]
  · simp [show ¬ i < 8 by omega, show ¬ i - 8 < 8 by omega, show ¬ i - 8 - 8 < 8 by omega,
      show i - 8 - 8 - 8 < 8 by omega, show 24 + (i - 8 - 8 - 8) = i by omega]

/-- A word read depends on its four bytes only. -/
theorem readWord_congr (m n : Memory) (a : Nat)
    (h : ∀ b, a ≤ b → b < a + 4 → Memory.read m b = Memory.read n b) :
    readWord m a = readWord n a := by
  unfold readWord
  rw [h a (by omega) (by omega), h (a + 1) (by omega) (by omega), h (a + 2) (by omega) (by omega),
    h (a + 3) (by omega) (by omega)]

end Sys2Proof.Machine
end

