-- ==== Sys2Proof/Laws/State.lean ====
section
/-! SUPPORT. One lemma per field per update of the state, so that no later proof unfolds a record update. -/

namespace Sys2Proof.Machine

@[simp] theorem setPc_cfg (s : State) (t : Word) : (setPc s t).cfg = s.cfg := rfl
@[simp] theorem setPc_regs (s : State) (t : Word) : (setPc s t).regs = s.regs := rfl
@[simp] theorem setPc_pc (s : State) (t : Word) : (setPc s t).pc = t := rfl
@[simp] theorem setPc_dmem (s : State) (t : Word) : (setPc s t).dmem = s.dmem := rfl
@[simp] theorem setPc_imem (s : State) (t : Word) : (setPc s t).imem = s.imem := rfl
@[simp] theorem setPc_ctrl (s : State) (t : Word) : (setPc s t).ctrl = s.ctrl := rfl
@[simp] theorem setPc_haltCause (s : State) (t : Word) : (setPc s t).haltCause = s.haltCause := rfl

@[simp] theorem advance_cfg (s : State) : (advance s).cfg = s.cfg := rfl
@[simp] theorem advance_regs (s : State) : (advance s).regs = s.regs := rfl
@[simp] theorem advance_pc (s : State) : (advance s).pc = s.pc + 4#32 := rfl
@[simp] theorem advance_dmem (s : State) : (advance s).dmem = s.dmem := rfl
@[simp] theorem advance_imem (s : State) : (advance s).imem = s.imem := rfl
@[simp] theorem advance_ctrl (s : State) : (advance s).ctrl = s.ctrl := rfl
@[simp] theorem advance_haltCause (s : State) : (advance s).haltCause = s.haltCause := rfl

@[simp] theorem setCtrl_cfg (s : State) (f : ControlSignals) : (setCtrl s f).cfg = s.cfg := rfl
@[simp] theorem setCtrl_regs (s : State) (f : ControlSignals) : (setCtrl s f).regs = s.regs := rfl
@[simp] theorem setCtrl_pc (s : State) (f : ControlSignals) : (setCtrl s f).pc = s.pc := rfl
@[simp] theorem setCtrl_dmem (s : State) (f : ControlSignals) : (setCtrl s f).dmem = s.dmem := rfl
@[simp] theorem setCtrl_imem (s : State) (f : ControlSignals) : (setCtrl s f).imem = s.imem := rfl
@[simp] theorem setCtrl_ctrl (s : State) (f : ControlSignals) : (setCtrl s f).ctrl = f := rfl
@[simp] theorem setCtrl_haltCause (s : State) (f : ControlSignals) : (setCtrl s f).haltCause = s.haltCause := rfl

@[simp] theorem raise_cfg (s : State) (c : HaltCause) : (raise s c).cfg = s.cfg := rfl
@[simp] theorem raise_regs (s : State) (c : HaltCause) : (raise s c).regs = s.regs := rfl
@[simp] theorem raise_pc (s : State) (c : HaltCause) : (raise s c).pc = s.pc := rfl
@[simp] theorem raise_dmem (s : State) (c : HaltCause) : (raise s c).dmem = s.dmem := rfl
@[simp] theorem raise_imem (s : State) (c : HaltCause) : (raise s c).imem = s.imem := rfl
@[simp] theorem raise_ctrl (s : State) (c : HaltCause) : (raise s c).ctrl = s.ctrl := rfl
@[simp] theorem raise_haltCause (s : State) (c : HaltCause) : (raise s c).haltCause = c := rfl

@[simp] theorem load_cfg (s : State) (ws : List Word) : (s.load ws).cfg = s.cfg := rfl
@[simp] theorem load_regs (s : State) (ws : List Word) : (s.load ws).regs = Vector.replicate 32 0#32 := rfl
@[simp] theorem load_pc (s : State) (ws : List Word) : (s.load ws).pc = 0#32 := rfl
@[simp] theorem load_dmem (s : State) (ws : List Word) : (s.load ws).dmem = if s.cfg.clearDmemOnLoad then [] else s.dmem := rfl
@[simp] theorem load_imem (s : State) (ws : List Word) : (s.load ws).imem = ws := rfl
@[simp] theorem load_ctrl (s : State) (ws : List Word) : (s.load ws).ctrl = {} := rfl
@[simp] theorem load_haltCause (s : State) (ws : List Word) : (s.load ws).haltCause = .none := rfl

@[simp] theorem powerOn_cfg (c : Config) : (State.powerOn c).cfg = c := rfl
@[simp] theorem powerOn_regs (c : Config) : (State.powerOn c).regs = Vector.replicate 32 0#32 := rfl
@[simp] theorem powerOn_pc (c : Config) : (State.powerOn c).pc = 0#32 := rfl
@[simp] theorem powerOn_dmem (c : Config) : (State.powerOn c).dmem = [] := rfl
@[simp] theorem powerOn_imem (c : Config) : (State.powerOn c).imem = [] := rfl
@[simp] theorem powerOn_ctrl (c : Config) : (State.powerOn c).ctrl = {} := rfl
@[simp] theorem powerOn_haltCause (c : Config) : (State.powerOn c).haltCause = .none := rfl

@[simp] theorem withFetchWord_cfg (s : State) (n w : Nat) : (s.withFetchWord n w).cfg = s.cfg := rfl
@[simp] theorem withFetchWord_regs (s : State) (n w : Nat) : (s.withFetchWord n w).regs = s.regs := rfl
@[simp] theorem withFetchWord_pc (s : State) (n w : Nat) : (s.withFetchWord n w).pc = alignDown s.pc := rfl
@[simp] theorem withFetchWord_dmem (s : State) (n w : Nat) : (s.withFetchWord n w).dmem = s.dmem := rfl
@[simp] theorem withFetchWord_imem (s : State) (n w : Nat) : (s.withFetchWord n w).imem = placeWord s.imem (s.pc.toNat / 4) (BitVec.ofNat 32 (w % 2 ^ n)) := rfl
@[simp] theorem withFetchWord_ctrl (s : State) (n w : Nat) : (s.withFetchWord n w).ctrl = s.ctrl := rfl
@[simp] theorem withFetchWord_haltCause (s : State) (n w : Nat) : (s.withFetchWord n w).haltCause = .none := rfl

theorem writeReg_zero (s : State) (v : Word) : writeReg s 0 v = s := rfl

@[simp] theorem writeReg_cfg (s : State) (i : RegIdx) (v : Word) : (writeReg s i v).cfg = s.cfg := by
  unfold writeReg; split <;> rfl
@[simp] theorem writeReg_pc (s : State) (i : RegIdx) (v : Word) : (writeReg s i v).pc = s.pc := by
  unfold writeReg; split <;> rfl
@[simp] theorem writeReg_dmem (s : State) (i : RegIdx) (v : Word) : (writeReg s i v).dmem = s.dmem := by
  unfold writeReg; split <;> rfl
@[simp] theorem writeReg_imem (s : State) (i : RegIdx) (v : Word) : (writeReg s i v).imem = s.imem := by
  unfold writeReg; split <;> rfl
@[simp] theorem writeReg_ctrl (s : State) (i : RegIdx) (v : Word) : (writeReg s i v).ctrl = s.ctrl := by
  unfold writeReg; split <;> rfl
@[simp] theorem writeReg_haltCause (s : State) (i : RegIdx) (v : Word) : (writeReg s i v).haltCause = s.haltCause := by
  unfold writeReg; split <;> rfl

@[simp] theorem readReg_setPc (s : State) (t : Word) (i : RegIdx) :
    readReg (setPc s t) i = readReg s i := rfl
@[simp] theorem readReg_advance (s : State) (i : RegIdx) :
    readReg (advance s) i = readReg s i := rfl
@[simp] theorem readReg_setCtrl (s : State) (f : ControlSignals) (i : RegIdx) :
    readReg (setCtrl s f) i = readReg s i := rfl
@[simp] theorem readReg_raise (s : State) (c : HaltCause) (i : RegIdx) :
    readReg (raise s c) i = readReg s i := rfl
@[simp] theorem readReg_withFetchWord (s : State) (n w : Nat) (i : RegIdx) :
    readReg (s.withFetchWord n w) i = readReg s i := rfl

/-- Reading never depends on data memory. -/
@[simp] theorem readReg_dmem (s : State) (m : Memory) (i : RegIdx) :
    readReg { s with dmem := m } i = readReg s i := rfl

/-- The zero guard (R21). -/
@[simp] theorem readReg_zero (s : State) : readReg s 0 = 0#32 := rfl

/-- Everything a register write can do, seen through the read port (R21, R22). -/
theorem readReg_writeReg (s : State) (i j : RegIdx) (v : Word) :
    readReg (writeReg s i v) j = if j ≠ 0 ∧ j = i then v else readReg s j := by
  unfold readReg writeReg
  by_cases hj : j = 0
  · simp [hj]
  · by_cases hi : i = 0
    · have : j ≠ i := fun h => hj (h.trans hi)
      simp [hi, hj]
    · by_cases hij : j = i
      · subst hij; simp [hj]
      · have : i.val ≠ j.val := fun h => hij (Fin.ext h.symm)
        simp [hi, hj, hij, this]

/-- Register 0's cell is never written (R22). -/
@[simp] theorem writeReg_cell_zero (s : State) (i : RegIdx) (v : Word) :
    (writeReg s i v).regs[0] = s.regs[0] := by
  unfold writeReg
  split
  · rfl
  · rename_i h
    have : i.val ≠ 0 := fun h' => h (Fin.ext h')
    simp [this]

end Sys2Proof.Machine
end

