-- ==== Sys2Proof/Laws/Ops.lean ====
section
/-! SUPPORT. One lemma per shared operation: alignment, the halt test, the access check and the access
primitives. -/

namespace Sys2Proof.Machine

/-! ## Alignment -/

theorem aligned_iff (v : Word) : aligned v = true ↔ v.toNat % 4 = 0 := by
  unfold aligned
  rw [beq_iff_eq, ← BitVec.toNat_inj]
  simp

/-- The sum of two multiples of 4 is one, wrap included. -/
theorem aligned_add (v u : Word) (hv : aligned v = true) : aligned (v + u) = aligned u := by
  rw [Bool.eq_iff_iff, aligned_iff, aligned_iff]
  rw [aligned_iff] at hv
  rw [BitVec.toNat_add]
  omega

@[simp] theorem aligned_four : aligned 4#32 = true := by decide

@[simp] theorem aligned_zero : aligned 0#32 = true := by decide

/-- `pc + 4` keeps the invariant of R25. -/
theorem aligned_advance (s : State) (h : aligned s.pc = true) : aligned (advance s).pc = true := by
  simp [aligned_add _ _ h]

theorem aligned_alignDown (v : Word) : aligned (alignDown v) = true := by
  unfold aligned alignDown
  rw [beq_iff_eq]
  apply BitVec.eq_of_getLsbD_eq
  intro i hi
  simp only [BitVec.getLsbD_extractLsb', BitVec.getLsbD_append]
  simp [hi]

/-! ## Halted and Ready (R141) -/

theorem halted_iff (s : State) :
    halted s = true ↔ s.haltCause ≠ .none ∨ s.imem.length ≤ s.pc.toNat / 4 := by
  simp [halted]

theorem ready_iff (s : State) :
    halted s = false ↔ s.haltCause = .none ∧ s.pc.toNat / 4 < s.imem.length := by
  rw [← Bool.not_eq_true, halted_iff]
  simp

/-- The fetch depends on the `pc` and instruction memory only. -/
theorem fetch_congr (s t : State) (hp : t.pc = s.pc) (hi : t.imem = s.imem) : fetch t = fetch s := by
  simp [fetch, hp, hi]

/-- A Ready engine has a word to fetch (R142). -/
theorem ready_fetch (s : State) (h : halted s = false) : ∃ w, fetch s = some w := by
  obtain ⟨_, h⟩ := (ready_iff s).mp h
  exact ⟨s.imem[s.pc.toNat / 4], by simp [fetch, h]⟩

/-! ## The access check and the primitives (R44, R46, R47) -/

/-- A valid address has its four bytes inside data memory, read as an unsigned number. -/
theorem validAddress_within (c : Config) (addr : Word) (h : validAddress c addr = true) :
    addr.toNat + 3 < c.dmemBytes := by
  simp only [validAddress, Bool.and_eq_true, decide_eq_true_eq] at h
  have := BitVec.toInt_eq_toNat_cond addr
  split at this <;> omega

/-- Everything a read can answer (R46). -/
theorem memRead_cases (s : State) (addr : Word) :
    (validAddress s.cfg addr = true ∧ memRead s addr = .ok (readWord s.dmem addr.toNat)) ∨
    (validAddress s.cfg addr = false ∧ memRead s addr = .error .invalidMemoryAddress) := by
  unfold memRead
  cases validAddress s.cfg addr <;> simp

/-- Everything a write can answer (R47). -/
theorem memWrite_cases (s : State) (addr v : Word) :
    (validAddress s.cfg addr = true ∧
      memWrite s addr v = .ok { s with dmem := writeWord s.dmem addr.toNat v }) ∨
    (validAddress s.cfg addr = false ∧ memWrite s addr v = .error .invalidMemoryAddress) := by
  unfold memWrite
  cases validAddress s.cfg addr <;> simp

/-- A load keeps data memory canonical (R182). -/
theorem load_wf (s : State) (ws : List Word) (h : Memory.wf s.dmem = true) :
    Memory.wf (s.load ws).dmem = true := by
  simp only [load_dmem]
  split
  · rfl
  · exact h

/-- Reset memory is canonical. -/
theorem reset_wf : Memory.wf State.reset.dmem = true := rfl

end Sys2Proof.Machine
end

