-- ==== Sys2Proof/Laws/Exec.lean ====
section
/-! SUPPORT. What an instruction and a step can do, said once: the shared ends of the meanings, the
result of each instruction as one equation, the inversion of `step`, and the frame every instruction
keeps. -/

namespace Sys2Proof.Machine

/-! ## The flag strings of R85 -/

@[simp] theorem ctrlBits_rtype (op : AluOp) : ctrlBits (controlFlags (.rtype op)) = 0b110000010#9 := by
  cases op <;> decide
@[simp] theorem ctrlBits_addi : ctrlBits (controlFlags .addi) = 0b110000100#9 := by decide
@[simp] theorem ctrlBits_lw : ctrlBits (controlFlags .lw) = 0b110110100#9 := by decide
@[simp] theorem ctrlBits_sw : ctrlBits (controlFlags .sw) = 0b000001100#9 := by decide
@[simp] theorem ctrlBits_beq : ctrlBits (controlFlags .beq) = 0b001000001#9 := by decide
@[simp] theorem ctrlBits_bne : ctrlBits (controlFlags .bne) = 0b001000001#9 := by decide

/-! ## Shared ends of the meanings -/

/-- Everything `writeBack` does (R102 to R106). -/
theorem writeBack_spec (s : State) (k : Kind) (rd : RegIdx) (v : Word) :
    (∀ r, readReg (writeBack s k rd v) r = if r ≠ 0 ∧ r = rd then v else readReg s r) ∧
    (writeBack s k rd v).pc = s.pc + 4#32 ∧ (writeBack s k rd v).ctrl = controlFlags k ∧
    (writeBack s k rd v).dmem = s.dmem ∧ (writeBack s k rd v).imem = s.imem ∧
    (writeBack s k rd v).haltCause = s.haltCause ∧ (writeBack s k rd v).cfg = s.cfg ∧
    (writeBack s k rd v).regs[0] = s.regs[0] := by
  unfold writeBack
  refine ⟨fun r => ?_, by simp, by simp, by simp, by simp, by simp, by simp, by simp⟩
  rw [readReg_advance, readReg_writeReg, readReg_setCtrl]

/-- Everything `resolveBranch` can do (R133 to R135). -/
theorem resolveBranch_cases (s : State) (taken : Bool) (offset : Word) :
    (taken = false ∧ resolveBranch s taken offset = advance s) ∨
    (taken = true ∧ aligned (branchTarget s offset) = true ∧
      resolveBranch s taken offset = setPc s (branchTarget s offset)) ∨
    (taken = true ∧ aligned (branchTarget s offset) = false ∧
      resolveBranch s taken offset = raise s .misalignedBranchTarget) := by
  unfold resolveBranch
  cases taken <;> cases h : aligned (branchTarget s offset) <;> simp

/-- A branch writes neither registers nor memory, instruction memory nor configuration. -/
theorem resolveBranch_frame (s : State) (taken : Bool) (offset : Word) :
    (resolveBranch s taken offset).regs = s.regs ∧ (resolveBranch s taken offset).dmem = s.dmem ∧
    (resolveBranch s taken offset).imem = s.imem ∧ (resolveBranch s taken offset).cfg = s.cfg ∧
    (resolveBranch s taken offset).ctrl = s.ctrl := by
  rcases resolveBranch_cases s taken offset with ⟨_, h⟩ | ⟨_, _, h⟩ | ⟨_, _, h⟩ <;> simp [h]

/-! ## Each instruction as one equation -/

/-- A load at a valid address (R122). -/
theorem execLw_valid (rd rs1 : RegIdx) (imm : Word) (s : State)
    (h : validAddress s.cfg (effectiveAddress s rs1 imm) = true) :
    exec (.lw rd rs1 imm) s =
      .next (writeBack s .lw rd (readWord s.dmem (effectiveAddress s rs1 imm).toNat)) := by
  simp [exec, execLw, memRead, h, writeBack]

/-- A load at an invalid address (R122, R163). -/
theorem execLw_invalid (rd rs1 : RegIdx) (imm : Word) (s : State)
    (h : validAddress s.cfg (effectiveAddress s rs1 imm) = false) :
    exec (.lw rd rs1 imm) s =
      .next (raise (setCtrl s (controlFlags .lw)) .invalidMemoryAddress) := by
  simp [exec, execLw, memRead, h]

/-- A store at a valid address (R123). -/
theorem execSw_valid (rs2 rs1 : RegIdx) (imm : Word) (s : State)
    (h : validAddress s.cfg (effectiveAddress s rs1 imm) = true) :
    exec (.sw rs2 rs1 imm) s =
      .next (advance { setCtrl s (controlFlags .sw) with
        dmem := writeWord s.dmem (effectiveAddress s rs1 imm).toNat (readReg s rs2) }) := by
  simp [exec, execSw, memWrite, h]

/-- A store at an invalid address (R123, R163). -/
theorem execSw_invalid (rs2 rs1 : RegIdx) (imm : Word) (s : State)
    (h : validAddress s.cfg (effectiveAddress s rs1 imm) = false) :
    exec (.sw rs2 rs1 imm) s =
      .next (raise (setCtrl s (controlFlags .sw)) .invalidMemoryAddress) := by
  simp [exec, execSw, memWrite, h]

/-- The difference a branch tests is 0 exactly when the operands are equal (R132). -/
theorem branchDiff_eq_zero (s : State) (rs1 rs2 : RegIdx) :
    branchDiff s rs1 rs2 = 0#32 ↔ readReg s rs1 = readReg s rs2 := by
  unfold branchDiff alu
  constructor
  · intro h
    have := congrArg (· + readReg s rs2) h
    simpa using this
  · intro h; simp [h]

/-! ## What every instruction keeps -/

/-- Every instruction answers a next state with the same program, configuration and register-0 cell. -/
theorem exec_program (i : Instr) (s t : State) (h : exec i s = .next t) :
    t.imem = s.imem ∧ t.cfg = s.cfg ∧ t.regs[0] = s.regs[0] := by
  cases i with
  | lw rd rs1 imm =>
    cases hv : validAddress s.cfg (effectiveAddress s rs1 imm) with
    | true =>
      rw [execLw_valid _ _ _ _ hv] at h
      cases h
      obtain ⟨_, _, _, _, h1, _, h2, h3⟩ := writeBack_spec s .lw rd
        (readWord s.dmem (effectiveAddress s rs1 imm).toNat)
      exact ⟨h1, h2, h3⟩
    | false =>
      rw [execLw_invalid _ _ _ _ hv] at h
      cases h
      simp
  | sw rs2 rs1 imm =>
    cases hv : validAddress s.cfg (effectiveAddress s rs1 imm) with
    | true =>
      rw [execSw_valid _ _ _ _ hv] at h
      cases h
      simp
    | false =>
      rw [execSw_invalid _ _ _ _ hv] at h
      cases h
      simp
  | beq rs1 rs2 offset =>
    cases h
    obtain ⟨h1, _, h2, h3, _⟩ := resolveBranch_frame (setCtrl s (controlFlags .beq))
      (branchDiff s rs1 rs2 == 0#32) offset
    simp [h1, h2, h3]
  | bne rs1 rs2 offset =>
    cases h
    obtain ⟨h1, _, h2, h3, _⟩ := resolveBranch_frame (setCtrl s (controlFlags .bne))
      (branchDiff s rs1 rs2 != 0#32) offset
    simp [h1, h2, h3]
  | _ =>
    cases h
    exact ⟨(writeBack_spec _ _ _ _).2.2.2.2.1, (writeBack_spec _ _ _ _).2.2.2.2.2.2.1,
      (writeBack_spec _ _ _ _).2.2.2.2.2.2.2⟩

/-- Everything an instruction can do to the flags, the latch and the `pc`: it completes with its next `pc`,
or it raises the one cause its kind can raise, changing nothing but the flags and the latch (R161, R165). -/
theorem exec_outcome (i : Instr) (s : State) :
    ∃ t, exec i s = .next t ∧ t.ctrl = controlFlags (kindOf i) ∧
      ((t.haltCause = s.haltCause ∧ t.pc = nextPcOf s i) ∨
       (t = raise (setCtrl s (controlFlags (kindOf i))) .invalidMemoryAddress ∧
         ∃ r rs1 imm, (i = .lw r rs1 imm ∨ i = .sw r rs1 imm) ∧
           validAddress s.cfg (effectiveAddress s rs1 imm) = false) ∨
       (t = raise (setCtrl s (controlFlags (kindOf i))) .misalignedBranchTarget ∧
         ∃ rs1 rs2 offset,
           ((i = .beq rs1 rs2 offset ∧ branchDiff s rs1 rs2 = 0#32) ∨
            (i = .bne rs1 rs2 offset ∧ branchDiff s rs1 rs2 ≠ 0#32)) ∧
           aligned (branchTarget s offset) = false)) := by
  cases i with
  | lw rd rs1 imm =>
    cases hv : validAddress s.cfg (effectiveAddress s rs1 imm) with
    | true =>
      obtain ⟨_, hpc, hctrl, _, _, hcause, _⟩ := writeBack_spec s .lw rd
        (readWord s.dmem (effectiveAddress s rs1 imm).toNat)
      exact ⟨_, execLw_valid _ _ _ _ hv, hctrl, .inl ⟨hcause, hpc⟩⟩
    | false =>
      exact ⟨_, execLw_invalid _ _ _ _ hv, rfl, .inr (.inl ⟨rfl, _, _, _, .inl rfl, hv⟩)⟩
  | sw rs2 rs1 imm =>
    cases hv : validAddress s.cfg (effectiveAddress s rs1 imm) with
    | true => exact ⟨_, execSw_valid _ _ _ _ hv, rfl, .inl ⟨rfl, rfl⟩⟩
    | false =>
      exact ⟨_, execSw_invalid _ _ _ _ hv, rfl, .inr (.inl ⟨rfl, _, _, _, .inr rfl, hv⟩)⟩
  | beq rs1 rs2 offset =>
    refine ⟨_, rfl, (resolveBranch_frame _ _ _).2.2.2.2, ?_⟩
    rcases resolveBranch_cases (setCtrl s (controlFlags .beq)) (branchDiff s rs1 rs2 == 0#32) offset
      with ⟨ht, h⟩ | ⟨ht, _, h⟩ | ⟨ht, ha, h⟩ <;> rw [h]
    · have hne : ¬ readReg s rs1 = readReg s rs2 := by
        rw [← branchDiff_eq_zero]; simpa using ht
      exact .inl ⟨rfl, by simp [nextPcOf, hne]⟩
    · have heq : readReg s rs1 = readReg s rs2 := by
        rw [← branchDiff_eq_zero]; simpa using ht
      exact .inl ⟨rfl, by simp [nextPcOf, heq, branchTarget]⟩
    · exact .inr (.inr ⟨rfl, _, _, _, .inl ⟨rfl, by simpa using ht⟩, ha⟩)
  | bne rs1 rs2 offset =>
    refine ⟨_, rfl, (resolveBranch_frame _ _ _).2.2.2.2, ?_⟩
    rcases resolveBranch_cases (setCtrl s (controlFlags .bne)) (branchDiff s rs1 rs2 != 0#32) offset
      with ⟨ht, h⟩ | ⟨ht, _, h⟩ | ⟨ht, ha, h⟩ <;> rw [h]
    · have heq : readReg s rs1 = readReg s rs2 := by
        rw [← branchDiff_eq_zero]; simpa using ht
      exact .inl ⟨rfl, by simp [nextPcOf, heq]⟩
    · have hne : ¬ readReg s rs1 = readReg s rs2 := by
        rw [← branchDiff_eq_zero]; simpa using ht
      exact .inl ⟨rfl, by simp [nextPcOf, hne, branchTarget]⟩
    · exact .inr (.inr ⟨rfl, _, _, _, .inr ⟨rfl, by simpa using ht⟩, ha⟩)
  | _ =>
    exact ⟨_, rfl, (writeBack_spec _ _ _ _).2.2.1,
      .inl ⟨(writeBack_spec _ _ _ _).2.2.2.2.2.1, (writeBack_spec _ _ _ _).2.1⟩⟩

/-! ## What a step can do -/

/-- Everything `step` can answer (R140): the no-op, the model's fault outside the data model, a
rejection, or the decoded instruction. -/
theorem step_cases (s : State) :
    (halted s = true ∧ step s = .next s) ∨
    (halted s = false ∧ aligned s.pc = false ∧ step s = .fault .unalignedPc) ∨
    (∃ w e, halted s = false ∧ aligned s.pc = true ∧ fetch s = some w ∧ decode w = .error e ∧
      step s = .next (raise s .unsupportedInstruction)) ∨
    (∃ w i, halted s = false ∧ aligned s.pc = true ∧ fetch s = some w ∧ decode w = .ok i ∧
      step s = exec i s) := by
  cases hh : halted s with
  | true => exact .inl ⟨rfl, by simp [step, cycle, hh]⟩
  | false =>
    cases ha : aligned s.pc with
    | false => exact .inr (.inl ⟨rfl, rfl, by simp [step, cycle, hh, ha]⟩)
    | true =>
      obtain ⟨w, hw⟩ := ready_fetch s hh
      cases hd : decode w with
      | error e =>
        exact .inr (.inr (.inl ⟨w, e, rfl, rfl, hw, hd, by simp [step, cycle, hh, ha, hw, runWord, hd]⟩))
      | ok i =>
        exact .inr (.inr (.inr ⟨w, i, rfl, rfl, hw, hd, by simp [step, cycle, hh, ha, hw, runWord, hd]⟩))

/-! ## Runs -/

/-- One more step of a run, when the first answers a next state. -/
theorem run_next (s t : State) (h : step s = .next t) (k : Nat) :
    Host.Core.run Sys2Proof.core (k + 1) s = Host.Core.run Sys2Proof.core k t := by
  have h' : Sys2Proof.core.step s = .next t := h
  simp only [Host.Core.run, h']

/-- A run whose first step faults stops there. -/
theorem run_fault (s : State) (r : Fault) (h : step s = .fault r) (k : Nat) :
    Host.Core.run Sys2Proof.core (k + 1) s = .fault r := by
  have h' : Sys2Proof.core.step s = .fault r := h
  simp only [Host.Core.run, h']

end Sys2Proof.Machine
end

