-- ==== Sys2Proof/Laws/PerInstr.lean ====
section
/-! SUPPORT. The statement made of every instruction: its encoding matches its row of the opcode table
(R71), one lemma per constructor. -/

namespace Sys2Proof.Laws.EncodingRow

/-- The mask of the instruction's row (R71). -/
def rowMask : Instr → Word
  | .add _ _ _ => 0xFE00707F#32
  | .sub _ _ _ => 0xFE00707F#32
  | .and _ _ _ => 0xFE00707F#32
  | .or _ _ _ => 0xFE00707F#32
  | .addi _ _ _ => 0x0000707F#32
  | .lw _ _ _ => 0x0000707F#32
  | .sw _ _ _ => 0x0000707F#32
  | .beq _ _ _ => 0x0000707F#32
  | .bne _ _ _ => 0x0000707F#32

/-- The match of the instruction's row (R71). -/
def rowMatch : Instr → Word
  | .add _ _ _ => 0x00000033#32
  | .sub _ _ _ => 0x40000033#32
  | .and _ _ _ => 0x00007033#32
  | .or _ _ _ => 0x00006033#32
  | .addi _ _ _ => 0x00000013#32
  | .lw _ _ _ => 0x00002003#32
  | .sw _ _ _ => 0x00002023#32
  | .beq _ _ _ => 0x00000063#32
  | .bne _ _ _ => 0x00001063#32

/-- The encoding of an instruction matches its row: `w & mask = match` (R71). -/
def Statement (i : Instr) : Prop := encode i &&& rowMask i = rowMatch i

/-- A word masked by the three selecting fields is those fields alone. -/
theorem mask_selects_funct7 (w : Word) :
    w &&& 0xFE00707F#32 =
      (funct7Field w ++ 0#5 ++ 0#5 ++ funct3Field w ++ 0#5 ++ opcodeField w : BitVec 32) := by
  apply BitVec.eq_of_getLsbD_eq
  intro i hi
  simp only [BitVec.getLsbD_append, funct7Field, funct3Field, opcodeField, BitVec.getLsbD_and,
    BitVec.getLsbD_extractLsb']
  interval_cases i <;> simp

/-- A word masked by opcode and funct3 is those fields alone. -/
theorem mask_selects_funct3 (w : Word) :
    w &&& 0x0000707F#32 =
      (0#7 ++ 0#5 ++ 0#5 ++ funct3Field w ++ 0#5 ++ opcodeField w : BitVec 32) := by
  apply BitVec.eq_of_getLsbD_eq
  intro i hi
  simp only [BitVec.getLsbD_append, funct3Field, opcodeField, BitVec.getLsbD_and,
    BitVec.getLsbD_extractLsb']
  interval_cases i <;> simp

theorem add (rd rs1 rs2 : RegIdx) : Statement (.add rd rs1 rs2) := by
  simp only [Statement, encode, rowMask, rowMatch, mask_selects_funct7, funct7Field_encodeR,
    funct3Field_encodeR, opcodeField_encodeR]
  decide

theorem sub (rd rs1 rs2 : RegIdx) : Statement (.sub rd rs1 rs2) := by
  simp only [Statement, encode, rowMask, rowMatch, mask_selects_funct7, funct7Field_encodeR,
    funct3Field_encodeR, opcodeField_encodeR]
  decide

theorem and (rd rs1 rs2 : RegIdx) : Statement (.and rd rs1 rs2) := by
  simp only [Statement, encode, rowMask, rowMatch, mask_selects_funct7, funct7Field_encodeR,
    funct3Field_encodeR, opcodeField_encodeR]
  decide

theorem or (rd rs1 rs2 : RegIdx) : Statement (.or rd rs1 rs2) := by
  simp only [Statement, encode, rowMask, rowMatch, mask_selects_funct7, funct7Field_encodeR,
    funct3Field_encodeR, opcodeField_encodeR]
  decide

theorem addi (rd rs1 : RegIdx) (imm : Word) : Statement (.addi rd rs1 imm) := by
  simp only [Statement, encode, rowMask, rowMatch, mask_selects_funct3, funct3Field_encodeI,
    opcodeField_encodeI]
  decide

theorem lw (rd rs1 : RegIdx) (imm : Word) : Statement (.lw rd rs1 imm) := by
  simp only [Statement, encode, rowMask, rowMatch, mask_selects_funct3, funct3Field_encodeI,
    opcodeField_encodeI]
  decide

theorem sw (rs2 rs1 : RegIdx) (imm : Word) : Statement (.sw rs2 rs1 imm) := by
  simp only [Statement, encode, rowMask, rowMatch, mask_selects_funct3, funct3Field_encodeS,
    opcodeField_encodeS]
  decide

theorem beq (rs1 rs2 : RegIdx) (offset : Word) : Statement (.beq rs1 rs2 offset) := by
  simp only [Statement, encode, rowMask, rowMatch, mask_selects_funct3, funct3Field_encodeB,
    opcodeField_encodeB]
  decide

theorem bne (rs1 rs2 : RegIdx) (offset : Word) : Statement (.bne rs1 rs2 offset) := by
  simp only [Statement, encode, rowMask, rowMatch, mask_selects_funct3, funct3Field_encodeB,
    opcodeField_encodeB]
  decide

end Sys2Proof.Laws.EncodingRow
end

