-- ==== Sys2Proof/Tests/Slice0.lean ====
section
/-! SUPPORT. Tests whose expected results come from spec/95_test_vectors.md and the rules' own examples,
and for every statement with hypotheses a named witness that meets them. -/

namespace Sys2Proof.Machine.Tests

/-! ## Small states -/

/-- A Ready state: the program, a `pc`, `x1` and `x2`, and a few memory bytes. -/
def start (imem : List Word) (pc x1 x2 : Word) (dmem : Memory) : State :=
  writeReg (writeReg { State.reset with imem := imem, pc := pc, dmem := dmem } 1 x1) 2 x2

/-- One field of the state an outcome goes on in. -/
def nextField {α : Type} (f : State → α) : Host.Outcome State Fault Refusal → Option α
  | .next t => some (f t)
  | .fault _ => none
  | .refused _ => none

/-- Whether an outcome is a next state that meets a check. -/
def nextMeets (p : State → Bool) : Host.Outcome State Fault Refusal → Bool
  | .next t => p t
  | .fault _ => false
  | .refused _ => false

theorem nextMeets_exists {p : State → Bool} {o : Host.Outcome State Fault Refusal}
    (h : nextMeets p o = true) : ∃ t, o = .next t ∧ p t = true := by
  cases o with
  | next t => exact ⟨t, rfl, h⟩
  | fault r => cases h
  | refused r => cases h

/-! ## Well-formedness: each check refuses an ill-formed term (R75) -/

theorem test_wf_imm_bounds :
    (Instr.addi 1 0 2047#32).WellFormed ∧ (Instr.addi 1 0 0xFFFFF800#32).WellFormed ∧
    ¬ (Instr.addi 1 0 2048#32).WellFormed ∧ ¬ (Instr.addi 1 0 0xFFFFF7FF#32).WellFormed := by decide

theorem test_wf_load_store_bounds :
    ¬ (Instr.lw 1 0 2048#32).WellFormed ∧ ¬ (Instr.sw 1 0 0xFFFFF7FF#32).WellFormed := by decide

theorem test_wf_branch_bounds :
    (Instr.beq 1 2 4094#32).WellFormed ∧ (Instr.bne 1 2 0xFFFFF000#32).WellFormed ∧
    ¬ (Instr.beq 1 2 4096#32).WellFormed ∧ ¬ (Instr.bne 1 2 0xFFFFEFFE#32).WellFormed := by decide

theorem test_wf_branch_odd : ¬ (Instr.beq 1 2 3#32).WellFormed := by decide

/-! ## Decoding words written out from the encoding tables (R62 to R65, V1, V2) -/

/-- funct7 | rs2 | rs1 | funct3 | rd | opcode. -/
theorem test_decode_add :
    decode 0b0000000_00010_00001_000_00011_0110011#32 = .ok (.add 3 1 2) := by decide
theorem test_decode_sub :
    decode 0b0100000_00010_00001_000_00011_0110011#32 = .ok (.sub 3 1 2) := by decide
theorem test_decode_and :
    decode 0b0000000_00010_00001_111_00011_0110011#32 = .ok (.and 3 1 2) := by decide
theorem test_decode_or :
    decode 0b0000000_00010_00001_110_00011_0110011#32 = .ok (.or 3 1 2) := by decide
/-- imm[11:0] | rs1 | funct3 | rd | opcode. -/
theorem test_decode_addi :
    decode 0b100000000000_00000_000_00001_0010011#32 = .ok (.addi 1 0 0xFFFFF800#32) := by decide
theorem test_decode_lw :
    decode 0b111111111100_00001_010_00010_0000011#32 = .ok (.lw 2 1 0xFFFFFFFC#32) := by decide
/-- imm[11:5] | rs2 | rs1 | funct3 | imm[4:0] | opcode. -/
theorem test_decode_sw :
    decode 0b1111111_00010_00001_010_11100_0100011#32 = .ok (.sw 2 1 0xFFFFFFFC#32) := by decide
/-- imm[12] | imm[10:5] | rs2 | rs1 | funct3 | imm[4:1] | imm[11] | opcode. -/
theorem test_decode_beq :
    decode 0b0_111111_00000_00000_000_1111_1_1100011#32 = .ok (.beq 0 0 4094#32) := by decide
theorem test_decode_bne :
    decode 0b1_111111_00010_00001_001_1100_1_1100011#32 = .ok (.bne 1 2 0xFFFFFFF8#32) := by decide

theorem test_encode_words :
    encode (.add 3 1 2) = 0x002081B3#32 ∧ encode (.sub 3 1 2) = 0x402081B3#32 ∧
    encode (.and 3 1 2) = 0x0020F1B3#32 ∧ encode (.or 3 1 2) = 0x0020E1B3#32 ∧
    encode (.addi 1 0 0x80000000#32) = 0x00000093#32 ∧ encode (.addi 1 0 5#32) = 0x00500093#32 ∧
    encode (.lw 2 1 0xFFFFFFFC#32) = 0xFFC0A103#32 ∧
    encode (.sw 2 1 0xFFFFFFFC#32) = 0xFE20AE23#32 ∧ encode (.beq 1 2 8#32) = 0x00208463#32 ∧
    encode (.bne 1 0 0xFFFFFFF8#32) = 0xFE009CE3#32 := by decide

/-- V1: the one row where immS and immB differ beyond bit 0. -/
theorem test_fields_V1 :
    decodeFields 0xFE20AE23#32
      = ⟨0x23#7, 28, 2#3, 1, 2, 0x7F#7, 0xFFFFFFE2#32, 0xFFFFFFFC#32, 0xFFFFF7FC#32⟩ ∧
    decodeFields 0x80000FA3#32
      = ⟨0x23#7, 31, 0#3, 0, 0, 0x40#7, 0xFFFFF800#32, 0xFFFFF81F#32, 0xFFFFF81E#32⟩ := by decide

/-- V3: rejected words, each under its class of R72. -/
theorem test_reject_V3 :
    decode 0x00000000#32 = .error .opcode ∧ decode 0xFFFFFFFF#32 = .error .opcode ∧
    decode 0x002081B2#32 = .error .opcode ∧ decode 0x00000073#32 = .error .opcode ∧
    decode 0x0FF0000F#32 = .error .opcode ∧ decode 0x0000006F#32 = .error .opcode ∧
    decode 0x022081B3#32 = .error .rtypeFunct ∧ decode 0x4020F1B3#32 = .error .rtypeFunct ∧
    decode 0x002091B3#32 = .error .rtypeFunct ∧ decode 0x0050A193#32 = .error .addiFunct3 ∧
    decode 0x00009183#32 = .error .lwFunct3 ∧ decode 0x00208023#32 = .error .swFunct3 ∧
    decode 0x0020A463#32 = .error .branchFunct3 ∧ decode 0x0020F463#32 = .error .branchFunct3 := by
  decide

theorem test_decodeTableWord :
    decodeTableWord 32 0x002081B3 = some (.add 3 1 2) ∧ decodeTableWord 32 0 = none := by decide

theorem test_withFetchWord_runs :
    nextField (fun t => readReg t 1) (step (State.reset.withFetchWord 32 0x00500093)) = some 5#32 := by
  decide

/-! ## Single steps (V4 to V7) -/

theorem test_add_wraps :
    nextField (fun t => (readReg t 3, t.pc, ctrlBits t.ctrl))
      (step (start [0x002081B3#32] 0#32 0x7FFFFFFF#32 1#32 []))
      = some (0x80000000#32, 4#32, 0b110000010#9) := by decide

theorem test_add_rd_zero :
    nextField (fun t => (readReg t 0, readReg t 1, readReg t 2))
      (step (start [0x00208033#32] 0#32 5#32 7#32 [])) = some (0#32, 5#32, 7#32) := by decide

theorem test_sub_negative :
    nextField (fun t => readReg t 3) (step (start [0x402081B3#32] 0#32 5#32 7#32 []))
      = some 0xFFFFFFFE#32 := by decide

theorem test_sub_same :
    nextField (fun t => readReg t 1) (step (start [0x401080B3#32] 0#32 0x1234#32 0#32 []))
      = some 0#32 := by decide

theorem test_and_bits :
    nextField (fun t => readReg t 3)
      (step (start [0x0020F1B3#32] 0#32 0xF0F0A5A5#32 0x0FF0FFFF#32 [])) = some 0x00F0A5A5#32 := by
  decide

theorem test_or_bits :
    nextField (fun t => readReg t 3)
      (step (start [0x0020E1B3#32] 0#32 0xF0F0A5A5#32 0x0FF00000#32 [])) = some 0xFFF0A5A5#32 := by
  decide

theorem test_addi_borrow :
    nextField (fun t => (readReg t 2, ctrlBits t.ctrl))
      (step (start [0xFFF08113#32] 0#32 0#32 0#32 [])) = some (0xFFFFFFFF#32, 0b110000100#9) := by
  decide

/-- V5: the last valid address, and the base register of the load is its own destination. -/
theorem test_lw_top :
    nextField (fun t => (readReg t 2, t.pc, ctrlBits t.ctrl))
      (step (start [0xFFC0A103#32] 0#32 0x1000#32 0#32
        [(4092, 0x78#8), (4093, 0x56#8), (4094, 0x34#8), (4095, 0x12#8)]))
      = some (0x12345678#32, 4#32, 0b110110100#9) := by decide

theorem test_lw_own_base :
    nextField (fun t => readReg t 1)
      (step (start [0x0040A083#32] 0#32 4#32 0#32
        [(8, 0xEF#8), (9, 0xBE#8), (10, 0xAD#8), (11, 0xDE#8)])) = some 0xDEADBEEF#32 := by decide

/-- V5 and S5: address 4093. -/
theorem test_lw_outside :
    nextField (fun t => (readReg t 2, t.pc, t.haltCause, ctrlBits t.ctrl))
      (step (start [0xFFD0A103#32] 0#32 0x1000#32 0xAAAA#32 []))
      = some (0xAAAA#32, 0#32, .invalidMemoryAddress, 0b110110100#9) := by decide

/-- S2: the bytes of the source's Scenario B. -/
theorem test_sw_little_endian :
    nextField (fun t => (t.dmem, t.pc, ctrlBits t.ctrl))
      (step (start [0x0020A023#32] 0#32 0#32 0x11223344#32 []))
      = some ([(0, 0x44#8), (1, 0x33#8), (2, 0x22#8), (3, 0x11#8)], 4#32, 0b000001100#9) := by decide

/-- V5: the address sum wraps, and a stored zero byte leaves no entry. -/
theorem test_sw_wrapping_sum :
    nextField (fun t => t.dmem)
      (step (start [0x0020A2A3#32] 0#32 0xFFFFFFFF#32 0xCA00F00D#32 [(6, 0x55#8), (8, 0x66#8)]))
      = some [(4, 0x0D#8), (5, 0xF0#8), (7, 0xCA#8), (8, 0x66#8)] := by decide

theorem test_beq_taken :
    nextField (fun t => t.pc)
      (step (start [0#32, 0#32, 0#32, 0#32, 0x00208463#32] 16#32 3#32 3#32 [])) = some 24#32 := by
  decide

/-- V6: a taken branch to 6. -/
theorem test_beq_misaligned :
    nextField (fun t => (t.pc, t.haltCause, ctrlBits t.ctrl))
      (step (start [0#32, 0x00000163#32] 4#32 0#32 0#32 []))
      = some (4#32, .misalignedBranchTarget, 0b001000001#9) := by decide

theorem test_bne_backward :
    nextField (fun t => t.pc)
      (step (start [0#32, 0#32, 0#32, 0#32, 0xFE209CE3#32] 16#32 3#32 4#32 [])) = some 8#32 := by
  decide

/-- V6: not taken, so the odd offset is never checked. -/
theorem test_bne_not_taken :
    nextField (fun t => (t.pc, t.haltCause)) (step (start [0#32, 0x00001163#32] 4#32 0#32 0#32 []))
      = some (8#32, .none) := by decide

/-- V6: a backward branch past offset 0 wraps and ends the run. -/
theorem test_beq_past_zero :
    nextField (fun t => (t.pc, t.haltCause, halted t))
      (step (start [0#32, 0xFE000CE3#32, 0#32] 4#32 0#32 0#32 []))
      = some (0xFFFFFFFC#32, .none, true) := by decide

/-- V7: a rejected word keeps the snapshot and the `pc`. -/
theorem test_reject_keeps_ctrl :
    nextField (fun t => (t.pc, t.haltCause, ctrlBits t.ctrl))
      (step { start [0x00500093#32, 0#32] 4#32 5#32 0#32 [] with ctrl := controlFlags .addi })
      = some (4#32, .unsupportedInstruction, 0b110000100#9) := by decide

theorem test_step_on_empty : step State.reset = .next State.reset := rfl

/-- The model's own fault (log 5). -/
theorem test_unaligned_pc : step (start [0x00500093#32] 2#32 0#32 0#32 []) = .fault .unalignedPc := rfl

/-- V7: a load clears registers, `pc`, snapshot and latch and keeps data memory, or clears it. -/
theorem test_load :
    (State.load { start [0#32] 0#32 5#32 0#32 [(1, 0xFF#8)] with
        haltCause := .unsupportedInstruction } [0x00700113#32]).dmem = [(1, 0xFF#8)] ∧
    (State.load { start [0#32] 0#32 5#32 0#32 [(1, 0xFF#8)] with
        cfg := { clearDmemOnLoad := true } } [0x00700113#32]).dmem = [] ∧
    halted (State.load { State.reset with haltCause := .unsupportedInstruction } [0x00700113#32])
      = false := by decide

theorem test_load_too_long :
    hostEvent (.load [0#32, 0#32]) { State.reset with cfg := { imemWordsMax := 1 } }
      = .refused .programTooLong := rfl

/-- The report of S5's failing step (R155). -/
theorem test_report :
    stepReport (start [0xFFD0A103#32] 0#32 0x1000#32 0#32 [])
      = some ⟨.invalidMemoryAddress, 0#32, 0xFFD0A103#32, 0xFFD#32⟩ := by decide

/-- V7's program line. -/
theorem test_line : parseLine "00000000001000001000000110110011".toList = some 0x002081B3#32 := by decide

/-- V7: a line of 4 digits, and one of 32 characters with a digit 2, are malformed. -/
theorem test_malformed_lines :
    parseLine "0000".toList = none ∧
    parseLine "00000000002000001000000110110011".toList = none := by decide

theorem test_halt_codes :
    [HaltCause.none, .unsupportedInstruction, .invalidMemoryAddress, .misalignedBranchTarget].map
      haltCode = [0, 1, 2, 3] := rfl

/-- V5's store through the blocks. -/
theorem test_datapath_sw :
    nextField (fun t => t.dmem) (datapathCycle (start [0x0020A023#32] 0#32 0#32 0x11223344#32 []))
      = some [(0, 0x44#8), (1, 0x33#8), (2, 0x22#8), (3, 0x11#8)] := by decide

/-! ## Witnesses of the statements' hypotheses -/

theorem witness_DecodeOfEncode :
    (Instr.addi 31 0 0xFFFFF800#32).WellFormed ∧ (Instr.lw 0 31 2047#32).WellFormed ∧
    (Instr.sw 31 31 0xFFFFF800#32).WellFormed ∧ (Instr.beq 0 31 4094#32).WellFormed ∧
    (Instr.bne 31 0 0xFFFFF000#32).WellFormed := by decide

theorem witness_EncodeOfDecode : decode 0x80000063#32 = .ok (.beq 0 0 0xFFFFF000#32) := by decide

theorem witness_UnsupportedWordsExactly :
    (0x002081B2#32).extractLsb' 0 2 ≠ 0b11#2 ∧ halted (start [0#32] 0#32 0#32 0#32 []) = false ∧
    aligned (start [0#32] 0#32 0#32 0#32 []).pc = true ∧
    fetch (start [0#32] 0#32 0#32 0#32 []) = some 0#32 ∧ decode 0#32 = .error .opcode := by decide

theorem witness_ImmediateI :
    decode 0x7FF00093#32 = .ok (.addi 1 0 2047#32) ∧
    decode 0x80002083#32 = .ok (.lw 1 0 0xFFFFF800#32) := by decide

theorem witness_ImmediateS : decode 0x7E20AFA3#32 = .ok (.sw 2 1 2047#32) := by decide

theorem witness_ImmediateB :
    decode 0x7E000FE3#32 = .ok (.beq 0 0 4094#32) ∧
    decode 0x80001063#32 = .ok (.bne 0 0 0xFFFFF000#32) := by decide

theorem witness_RegisterZeroReadsZero : ∃ t, step (start [0x00500013#32] 0#32 1#32 1#32 []) = .next t :=
  ⟨_, rfl⟩

theorem witness_RegisterWriteSeen : (1 : RegIdx) ≠ 0 ∧ (31 : RegIdx) ≠ 0 := by decide

theorem witness_IntegerEncodings :
    0x002081B3#32 &&& 0xFE00707F#32 = 0x00000033#32 ∧ 0x402081B3#32 &&& 0xFE00707F#32 = 0x40000033#32 ∧
    0x0020F1B3#32 &&& 0xFE00707F#32 = 0x00007033#32 ∧ 0x4020F1B3#32 &&& 0xFE00707F#32 = 0x40007033#32 ∧
    0x0020E1B3#32 &&& 0xFE00707F#32 = 0x00006033#32 ∧ 0x4020E1B3#32 &&& 0xFE00707F#32 = 0x40006033#32 ∧
    0x00500093#32 &&& 0x0000707F#32 = 0x00000013#32 ∧ opcodeField 0x0050A193#32 = 0x13#7 ∧
    funct3Field 0x0050A193#32 ≠ 0#3 := by decide

theorem witness_IntegerInstructionsOnlyCompute : (start [0#32] 0#32 0#32 0#32 []).haltCause = .none := rfl

theorem witness_DestinationZeroRunsInFull :
    validAddress State.reset.cfg (readReg State.reset 1 + 4#32) = true := by decide

/-- The bounds of R44 at their edges, for the default, the smallest and the largest capacity. -/
theorem witness_ValidAddressReadings :
    Config.Valid {} ∧ Config.Valid { dmemBytes := 4 } ∧ Config.Valid { dmemBytes := 2 ^ 30 } ∧
    fitsImm12 2047#32 ∧ fitsImm12 0xFFFFF800#32 ∧
    validAddress {} 0#32 = true ∧ validAddress {} 4092#32 = true ∧ validAddress {} 4093#32 = false ∧
    validAddress {} 0xFFFFFFFF#32 = false ∧ validAddress { dmemBytes := 4 } 0#32 = true ∧
    validAddress { dmemBytes := 4 } 1#32 = false ∧
    validAddress { dmemBytes := 2 ^ 30 } 0x3FFFFFFC#32 = true ∧
    validAddress { dmemBytes := 2 ^ 30 } 0x80000000#32 = false := by decide

theorem witness_MemWriteAllOrNone :
    Memory.wf (start [] 0#32 0#32 0#32 [(3, 1#8), (4092, 2#8)]).dmem = true ∧
    validAddress State.reset.cfg 4092#32 = true ∧ validAddress State.reset.cfg 4093#32 = false := by
  decide

/-- A word read back, then a neighbouring write that does not overlap it, above and below. -/
theorem witness_MemoryRoundTrip :
    ∃ s1 s2 s3, Memory.wf State.reset.dmem = true ∧ memWrite State.reset 4#32 0x11223344#32 = .ok s1 ∧
      Memory.wf s1.dmem = true ∧ memRead s1 4#32 = .ok 0x11223344#32 ∧
      memWrite s1 8#32 1#32 = .ok s2 ∧ memWrite s1 0#32 1#32 = .ok s3 ∧
      (4#32).toNat + 3 < (8#32).toNat ∧ (0#32).toNat + 3 < (4#32).toNat :=
  ⟨_, _, _, by decide, rfl, by decide, by decide, rfl, rfl, by decide, by decide⟩

theorem witness_LoadStoreComplete :
    Config.Valid State.reset.cfg ∧ Memory.wf State.reset.dmem = true ∧
    (readReg State.reset 1 + 0#32).toNat ≤ State.reset.cfg.dmemBytes - 4 ∧
    (effectiveAddress (start [] 0#32 0x1000#32 0#32 []) 1 0xFFFFFFFC#32).toNat
      ≤ State.reset.cfg.dmemBytes - 4 := by decide

theorem witness_LoadStoreOutside :
    State.reset.cfg.dmemBytes - 4
      < (readReg (start [] 0#32 0x1000#32 0#32 []) 1 + 0xFFFFFFFD#32).toNat ∧
    State.reset.cfg.dmemBytes - 4 < (readReg State.reset 1 + 0xFFFFFFFF#32).toNat := by decide

theorem witness_LoadSeesStoreBytewise :
    Memory.wf State.reset.dmem = true ∧ (2 : RegIdx) ≠ 0 ∧
    validAddress State.reset.cfg (effectiveAddress State.reset 0 1#32) = true ∧
    validAddress State.reset.cfg (effectiveAddress State.reset 0 0#32) = true := by decide

theorem witness_FetchNeverSeesStores :
    ∃ t, step (start [0x0020A023#32] 0#32 0#32 7#32 []) = .next t := ⟨_, rfl⟩

theorem witness_OnlyLoadStoreTouchMemory :
    ∃ t, step (start [0x0020A023#32] 0#32 0#32 7#32 []) = .next t ∧
      t.dmem ≠ (start [0x0020A023#32] 0#32 0#32 7#32 []).dmem := by
  obtain ⟨t, h, h'⟩ := nextMeets_exists (p := fun t => t.dmem == [(0, 7#8)])
    (o := step (start [0x0020A023#32] 0#32 0#32 7#32 [])) (by decide)
  exact ⟨t, h, by rw [eq_of_beq h']; decide⟩

/-- Also the instructions that are not `lw`, and not `sw`, of the two access statements. -/
theorem witness_OnlyLoadStoreTouchMemory_other :
    (∀ rd rs1 imm, Instr.beq 1 2 8#32 ≠ .lw rd rs1 imm) ∧
    (∀ rs2 rs1 imm, Instr.beq 1 2 8#32 ≠ .sw rs2 rs1 imm) :=
  ⟨fun _ _ _ => Instr.noConfusion, fun _ _ _ => Instr.noConfusion⟩

theorem witness_OnlyDestinationRegisterChanges :
    ∃ t, step (start [0x00500093#32] 0#32 0#32 0#32 []) = .next t ∧
      readReg t 1 ≠ readReg (start [0x00500093#32] 0#32 0#32 0#32 []) 1 := by
  obtain ⟨t, h, h'⟩ := nextMeets_exists (p := fun t => readReg t 1 == 5#32)
    (o := step (start [0x00500093#32] 0#32 0#32 0#32 [])) (by decide)
  exact ⟨t, h, by rw [eq_of_beq h']; decide⟩

/-- Taken to a multiple of 4, and not taken. -/
theorem witness_BranchesComplete :
    (readReg (start [] 16#32 3#32 3#32 []) 1 = readReg (start [] 16#32 3#32 3#32 []) 2 →
      ((start [] 16#32 3#32 3#32 []).pc + 8#32).toNat % 4 = 0) ∧
    (readReg (start [] 16#32 3#32 4#32 []) 1 = readReg (start [] 16#32 3#32 4#32 []) 2 →
      ((start [] 16#32 3#32 4#32 []).pc + 2#32).toNat % 4 = 0) ∧
    (readReg (start [] 16#32 3#32 4#32 []) 1 ≠ readReg (start [] 16#32 3#32 4#32 []) 2 →
      ((start [] 16#32 3#32 4#32 []).pc + 0xFFFFFFF8#32).toNat % 4 = 0) ∧
    (readReg (start [] 16#32 3#32 3#32 []) 1 ≠ readReg (start [] 16#32 3#32 3#32 []) 2 →
      ((start [] 16#32 3#32 3#32 []).pc + 2#32).toNat % 4 = 0) := by decide

theorem witness_MisalignedTakenBranchHalts :
    ((start [] 4#32 3#32 3#32 []).pc + 2#32).toNat % 4 ≠ 0 ∧
    readReg (start [] 4#32 3#32 3#32 []) 1 = readReg (start [] 4#32 3#32 3#32 []) 2 ∧
    ((start [] 4#32 3#32 4#32 []).pc + 2#32).toNat % 4 ≠ 0 ∧
    readReg (start [] 4#32 3#32 4#32 []) 1 ≠ readReg (start [] 4#32 3#32 4#32 []) 2 := by decide

theorem witness_MisalignmentIsBitEight :
    aligned State.reset.pc = true ∧ decode 0x00000163#32 = .ok (.beq 0 0 2#32) ∧
    decode 0x00001263#32 = .ok (.bne 0 0 4#32) := by decide

/-- A step that raises and one that completes, from Ready engines. -/
theorem witness_NextPcOfStep :
    halted (start [0#32] 0#32 0#32 0#32 []) = false ∧
    nextField (fun t => t.haltCause) (step (start [0#32] 0#32 0#32 0#32 []))
      = some .unsupportedInstruction ∧
    nextField (fun t => t.haltCause) (step (start [0x00500093#32] 0#32 0#32 0#32 [])) = some .none := by
  decide

/-- The first offset beyond the end, by a taken beq and a taken bne, and a target below 0. -/
theorem witness_TargetOutsideProgramEndsRun :
    (start [0#32] 4#32 3#32 4#32 []).haltCause = .none ∧
    readReg (start [0#32] 4#32 3#32 4#32 []) 1 = readReg (start [0#32] 4#32 3#32 4#32 []) 1 ∧
    readReg (start [0#32] 4#32 3#32 4#32 []) 1 ≠ readReg (start [0#32] 4#32 3#32 4#32 []) 2 ∧
    aligned ((start [0#32] 4#32 3#32 4#32 []).pc + 0#32) = true ∧
    4 * (start [0#32] 4#32 3#32 4#32 []).imem.length
      ≤ ((start [0#32] 4#32 3#32 4#32 []).pc + 0#32).toNat ∧
    fitsBranchOffset 0xFFFFFFF8#32 ∧ ((4#32).toNat : Int) + (0xFFFFFFF8#32).toInt < 0 ∧
    fitsBranchOffset 0xFFFFF000#32 ∧ ((0#32).toNat : Int) + (0xFFFFF000#32).toInt < 0 := by decide

theorem witness_SelfBranchNeverEnds :
    halted (start [0x00000063#32] 0#32 0#32 0#32 []) = false ∧
    aligned (start [0x00000063#32] 0#32 0#32 0#32 []).pc = true ∧
    fetch (start [0x00000063#32] 0#32 0#32 0#32 []) = some 0x00000063#32 ∧
    decode 0x00000063#32 = .ok (.beq 0 0 0#32) := by decide

/-- The other branch: `bne x1, x2, 0` with different registers. -/
theorem witness_SelfBranchNeverEnds_bne :
    halted (start [0x00209063#32] 0#32 3#32 4#32 []) = false ∧
    aligned (start [0x00209063#32] 0#32 3#32 4#32 []).pc = true ∧
    fetch (start [0x00209063#32] 0#32 3#32 4#32 []) = some 0x00209063#32 ∧
    decode 0x00209063#32 = .ok (.bne 1 2 0#32) ∧
    readReg (start [0x00209063#32] 0#32 3#32 4#32 []) 1
      ≠ readReg (start [0x00209063#32] 0#32 3#32 4#32 []) 2 := by decide

theorem witness_StepRunsDecodedInstruction :
    halted (start [0x002081B3#32] 0#32 0#32 0#32 []) = false ∧
    aligned (start [0x002081B3#32] 0#32 0#32 0#32 []).pc = true ∧
    fetch (start [0x002081B3#32] 0#32 0#32 0#32 []) = some 0x002081B3#32 ∧
    decode 0x002081B3#32 = .ok (.add 3 1 2) := by decide

/-- Halted by the end of the program, and by a cause. -/
theorem witness_HaltingMonotone :
    halted State.reset = true ∧
    halted { start [0#32] 0#32 0#32 0#32 [] with haltCause := .invalidMemoryAddress } = true := by decide

theorem witness_UnsupportedInstructionRaised :
    ∃ t, halted (start [0#32] 0#32 0#32 0#32 []) = false ∧
      aligned (start [0#32] 0#32 0#32 0#32 []).pc = true ∧
      step (start [0#32] 0#32 0#32 0#32 []) = .next t ∧ t.haltCause = .unsupportedInstruction :=
  ⟨_, by decide, by decide, rfl, rfl⟩

/-- A Ready state of the invariant with data memory and registers in use. -/
theorem witness_StateInv_ready : StateInv (start [0x0020A023#32] 0#32 0#32 7#32 [(5, 9#8)]) :=
  ⟨by decide, by decide, by decide, by decide, by decide, by decide, trivial⟩

theorem witness_StepKeepsInvariants :
    StateInv (start [0x0020A023#32] 0#32 0#32 7#32 [(5, 9#8)]) ∧
    ∃ t, step (start [0x0020A023#32] 0#32 0#32 7#32 [(5, 9#8)]) = .next t :=
  ⟨witness_StateInv_ready, _, rfl⟩

/-- A Halted state of the invariant, its cause explained by the word at the `pc`. -/
theorem witness_StateInv_halted :
    StateInv { start [0#32] 0#32 0#32 0#32 [] with haltCause := .unsupportedInstruction } :=
  ⟨by decide, by decide, by decide, by decide, by decide, by decide, 0#32, .opcode, rfl, by decide⟩

/-- Two of the invariant's other latched causes, each explained. -/
theorem witness_StateInv_faulted :
    StateInv { start [0xFFF02103#32] 0#32 0#32 0#32 [] with haltCause := .invalidMemoryAddress } ∧
    StateInv { start [0x00000363#32] 0#32 0#32 0#32 [] with haltCause := .misalignedBranchTarget } :=
  ⟨⟨by decide, by decide, by decide, by decide, by decide, by decide,
      0xFFF02103#32, 2, 0, 0xFFFFFFFF#32, rfl, .inl (by decide), by decide⟩,
    ⟨by decide, by decide, by decide, by decide, by decide, by decide,
      0x00000363#32, 0, 0, 6#32, rfl, .inl (by decide), by decide⟩⟩

theorem witness_StepOutcomes :
    StateInv (start [0x0020A023#32] 0#32 0#32 7#32 [(5, 9#8)]) ∧
    halted (start [0x0020A023#32] 0#32 0#32 7#32 [(5, 9#8)]) = false :=
  ⟨witness_StateInv_ready, by decide⟩

/-- A run that has not ended, and one that ended with a cause. -/
theorem witness_RunEndClassification :
    StateInv (start [0x0020A023#32] 0#32 0#32 7#32 [(5, 9#8)]) ∧
    runEnd (start [0x0020A023#32] 0#32 0#32 7#32 [(5, 9#8)]) = none ∧
    StateInv { start [0#32] 0#32 0#32 0#32 [] with haltCause := .unsupportedInstruction } :=
  ⟨witness_StateInv_ready, by decide, witness_StateInv_halted⟩

theorem witness_PowerOnMeetsInvariants :
    Config.Valid { dmemBytes := 4, clearDmemOnLoad := true, imemWordsMax := 0 } := by decide

theorem witness_ReachableStatesMeetInvariants : Reachable (State.reset.load [0x00500093#32]) :=
  .event (.load [0x00500093#32]) (.powerOn {} (by decide)) rfl

theorem witness_LoadKeepsInvariants :
    StateInv (State.powerOn { imemWordsMax := 1 }) ∧
    [0#32].length ≤ (State.powerOn { imemWordsMax := 1 }).cfg.imemWordsMax ∧
    (State.powerOn { imemWordsMax := 1 }).cfg.imemWordsMax < [0#32, 0#32].length :=
  ⟨⟨by decide, by decide, by decide, by decide, by decide, by decide, trivial⟩, by decide, by decide⟩

theorem witness_ProgramLoadState :
    State.reset.cfg.clearDmemOnLoad = false ∧
    (State.powerOn { clearDmemOnLoad := true }).cfg.clearDmemOnLoad = true := by decide

theorem witness_StepReports_inv :
    StateInv (start [0xFFF02103#32] 0#32 0#32 0#32 []) ∧
    ∃ t, step (start [0xFFF02103#32] 0#32 0#32 0#32 []) = .next t ∧
      t.haltCause = .invalidMemoryAddress :=
  ⟨⟨by decide, by decide, by decide, by decide, by decide, by decide, trivial⟩, _, rfl, rfl⟩

/-- One step for each kind of report, and one that makes none. -/
theorem witness_StepReports :
    nextField (fun t => t.haltCause) (step (start [0#32] 0#32 0#32 0#32 []))
      = some .unsupportedInstruction ∧
    nextField (fun t => t.haltCause) (step (start [0xFFF02103#32] 0#32 0#32 0#32 []))
      = some .invalidMemoryAddress ∧
    nextField (fun t => t.haltCause) (step (start [0x00000363#32] 0#32 0#32 0#32 []))
      = some .misalignedBranchTarget ∧
    nextField (fun t => t.haltCause) (step (start [0x00500093#32] 0#32 0#32 0#32 [])) = some .none := by
  decide

theorem witness_ProgramLineParsed :
    parseLine "10000000000000000000000000000010".toList = some 0x80000002#32 := by decide

theorem witness_MalformedLinesExcluded :
    parseLine "00000000000000000000000000010011".toList = some 0x00000013#32 ∧
    parseLine "".toList = none := by decide

end Sys2Proof.Machine.Tests
end

section
namespace Sys2Proof.Machine

/-- Settles O12: the zero guard stands in the read port (`readReg_zero`), so it answers for every
state, whether that state was stepped to or had index 0 written. -/
theorem registerZeroReadsZero : Obligations.RegisterZeroReadsZero :=
  ⟨readReg_zero, fun _ t _ => readReg_zero t, fun s v => readReg_zero (writeReg s 0 v)⟩

end Sys2Proof.Machine
end

section
/-! The memory statements (spec 20_memory.md): the bytes of a word read and of a word write, the two
access primitives inverted, and which instructions depend on data memory or change it. -/

namespace Sys2Proof.Machine

/-! ## The bytes of a word (R42) -/

/-- Little-endian: byte `j` of the word read is the byte at the address plus `j` (R46). -/
theorem extractLsb'_readWord (m : Memory) (a j : Nat) (hj : j < 4) :
    (readWord m a).extractLsb' (8 * j) 8 = Memory.read m (a + j) := by
  unfold readWord
  match j, hj with
  | 0, _ => exact BitVec.extractLsb'_append_eq_right
  | 1, _ =>
    rw [BitVec.extractLsb'_append_eq_of_le (by decide)]
    exact BitVec.extractLsb'_append_eq_right
  | 2, _ =>
    rw [BitVec.extractLsb'_append_eq_of_le (by decide), BitVec.extractLsb'_append_eq_of_le (by decide)]
    exact BitVec.extractLsb'_append_eq_right
  | 3, _ =>
    rw [BitVec.extractLsb'_append_eq_of_le (by decide), BitVec.extractLsb'_append_eq_of_le (by decide)]
    exact BitVec.extractLsb'_append_eq_left

/-- Little-endian: the address plus `j` holds byte `j` of the word written (R47). -/
theorem read_writeWord_inside (m : Memory) (a j : Nat) (v : Word) (hm : Memory.wf m = true)
    (hj : j < 4) : Memory.read (writeWord m a v) (a + j) = v.extractLsb' (8 * j) 8 := by
  rw [read_writeWord _ _ _ _ hm]
  match j, hj with
  | 0, _ | 1, _ | 2, _ | 3, _ => simp

theorem read_writeWord_outside (m : Memory) (a b : Nat) (v : Word) (hm : Memory.wf m = true)
    (hb : b < a ∨ a + 4 ≤ b) : Memory.read (writeWord m a v) b = Memory.read m b := by
  rw [read_writeWord _ _ _ _ hm, if_neg (by omega), if_neg (by omega), if_neg (by omega),
    if_neg (by omega)]

theorem readWord_writeWord_same (m : Memory) (a : Nat) (v : Word) (hm : Memory.wf m = true) :
    readWord (writeWord m a v) a = v := by
  simp [readWord, read_writeWord m a _ v hm, word_of_bytes]

theorem readWord_writeWord_disjoint (m : Memory) (a b : Nat) (v : Word) (hm : Memory.wf m = true)
    (hab : a + 3 < b ∨ b + 3 < a) : readWord (writeWord m b v) a = readWord m a :=
  readWord_congr _ _ _ fun _ _ _ => read_writeWord_outside _ _ _ _ hm (by omega)

/-! ## The access primitives, inverted (R46, R47) -/

theorem memRead_ok_iff (s : State) (a v : Word) :
    memRead s a = .ok v ↔ validAddress s.cfg a = true ∧ readWord s.dmem a.toNat = v := by
  rcases memRead_cases s a with ⟨ha, h⟩ | ⟨ha, h⟩ <;> simp [ha, h]

theorem memWrite_ok_iff (s t : State) (a v : Word) :
    memWrite s a v = .ok t ↔
      validAddress s.cfg a = true ∧ { s with dmem := writeWord s.dmem a.toNat v } = t := by
  rcases memWrite_cases s a v with ⟨ha, h⟩ | ⟨ha, h⟩ <;> simp [ha, h]

theorem memRead_invalid (s : State) (a : Word) (ha : validAddress s.cfg a = false) :
    memRead s a = .error .invalidMemoryAddress := by
  simp [memRead, ha]

theorem memWrite_invalid (s : State) (a v : Word) (ha : validAddress s.cfg a = false) :
    memWrite s a v = .error .invalidMemoryAddress := by
  simp [memWrite, ha]

/-! ## The operations over another data memory -/

theorem writeReg_dmem_comm (s : State) (m : Memory) (i : RegIdx) (v : Word) :
    writeReg { s with dmem := m } i v = { writeReg s i v with dmem := m } := by
  unfold writeReg
  split <;> rfl

theorem writeBack_dmem_comm (s : State) (m : Memory) (k : Kind) (rd : RegIdx) (v : Word) :
    writeBack { s with dmem := m } k rd v = { writeBack s k rd v with dmem := m } :=
  congrArg advance (writeReg_dmem_comm (setCtrl s (controlFlags k)) m rd v)

theorem resolveBranch_dmem_comm (s : State) (m : Memory) (taken : Bool) (offset : Word) :
    resolveBranch { s with dmem := m } taken offset =
      { resolveBranch s taken offset with dmem := m } := by
  have htarget : branchTarget { s with dmem := m } offset = branchTarget s offset := rfl
  unfold resolveBranch
  rw [htarget]
  cases taken with
  | false => rfl
  | true => cases aligned (branchTarget s offset) <;> rfl

/-- An instruction that is no access neither reads data memory nor writes it: over another one it
answers the same next state with that other one in it. -/
theorem exec_dmem_comm (i : Instr) (s : State) (m : Memory) (hlw : ∀ rd rs1 imm, i ≠ .lw rd rs1 imm)
    (hsw : ∀ rs2 rs1 imm, i ≠ .sw rs2 rs1 imm) :
    ∃ t, exec i s = .next t ∧ exec i { s with dmem := m } = .next { t with dmem := m } := by
  cases i with
  | lw rd rs1 imm => exact absurd rfl (hlw rd rs1 imm)
  | sw rs2 rs1 imm => exact absurd rfl (hsw rs2 rs1 imm)
  | beq _ _ _ | bne _ _ _ =>
    exact ⟨_, rfl, congrArg Host.Outcome.next (resolveBranch_dmem_comm (setCtrl s _) m _ _)⟩
  | _ => exact ⟨_, rfl, congrArg Host.Outcome.next (writeBack_dmem_comm s m _ _ _)⟩

/-- A store's answer depends on the data memory it starts from in its data memory only. -/
theorem execSw_dmem_only (rs2 rs1 : RegIdx) (imm : Word) (s : State) (m : Memory) :
    ∃ t u, exec (.sw rs2 rs1 imm) s = .next t ∧
      exec (.sw rs2 rs1 imm) { s with dmem := m } = .next u ∧ u = { t with dmem := u.dmem } := by
  cases hv : validAddress s.cfg (effectiveAddress s rs1 imm) with
  | true => exact ⟨_, _, execSw_valid _ _ _ s hv, execSw_valid _ _ _ { s with dmem := m } hv, rfl⟩
  | false =>
    exact ⟨_, _, execSw_invalid _ _ _ s hv, execSw_invalid _ _ _ { s with dmem := m } hv, rfl⟩

theorem execLw_keeps_dmem (rd rs1 : RegIdx) (imm : Word) (s t : State)
    (h : exec (.lw rd rs1 imm) s = .next t) : t.dmem = s.dmem := by
  cases hv : validAddress s.cfg (effectiveAddress s rs1 imm) with
  | true =>
    rw [execLw_valid _ _ _ _ hv] at h
    cases h
    obtain ⟨_, _, _, hdmem, _⟩ :=
      writeBack_spec s .lw rd (readWord s.dmem (effectiveAddress s rs1 imm).toNat)
    exact hdmem
  | false =>
    rw [execLw_invalid _ _ _ _ hv] at h
    cases h
    rfl

/-- Only a store changes data memory. An instruction that is no access answers `t` and also, over the
memory `s` already has, `t` with that memory. -/
theorem exec_keeps_dmem (i : Instr) (s t : State) (hsw : ∀ rs2 rs1 imm, i ≠ .sw rs2 rs1 imm)
    (h : exec i s = .next t) : t.dmem = s.dmem := by
  cases i with
  | lw rd rs1 imm => exact execLw_keeps_dmem rd rs1 imm s t h
  | _ =>
    obtain ⟨u, _, hu⟩ := exec_dmem_comm _ s s.dmem (by nofun) hsw
    cases h.symm.trans hu
    rfl

/-! ## The program under a step (R53) -/

/-- A step keeps the program: the no-op and a rejection trivially, an instruction by `exec_program`. -/
theorem step_keeps_imem (s t : State) (h : step s = .next t) : t.imem = s.imem := by
  rcases step_cases s with ⟨_, hs⟩ | ⟨_, _, hs⟩ | ⟨_, _, _, _, _, _, hs⟩ | ⟨_, i, _, _, _, _, hs⟩ <;>
    rw [hs] at h
  · cases h; rfl
  · cases h
  · cases h; rfl
  · exact (exec_program i s t h).1

theorem readReg_load (s : State) (ws : List Word) (r : RegIdx) : readReg (s.load ws) r = 0#32 := by
  simp [readReg]

/-! ## The statements -/

/-- Settles O31: `step_keeps_imem`, `fetch_congr`, and the fields of a load. -/
theorem fetchNeverSeesStores : Obligations.FetchNeverSeesStores :=
  ⟨step_keeps_imem, fun s m => fetch_congr s { s with dmem := m } rfl rfl,
    fun s ws => ⟨load_imem s ws, load_pc s ws, readReg_load s ws⟩⟩

/-- Settles O23: the bytes by `extractLsb'_readWord`; of the instructions but `lw`, `sw` may still
answer another data memory (`execSw_dmem_only`), the others nothing else at all (`exec_dmem_comm`). -/
theorem memReadLittleEndian : Obligations.MemReadLittleEndian := by
  refine ⟨fun s addr => ⟨fun hv => ⟨_, (memRead_ok_iff s addr _).mpr ⟨hv, rfl⟩,
    extractLsb'_readWord s.dmem addr.toNat⟩, memRead_invalid s addr⟩, fun i s m hlw => ?_⟩
  cases i with
  | sw rs2 rs1 imm => exact execSw_dmem_only rs2 rs1 imm s m
  | _ =>
    obtain ⟨t, ht, hu⟩ := exec_dmem_comm _ s m hlw nofun
    exact ⟨t, _, ht, hu, rfl⟩

/-- Settles O24: the bytes inside and outside the span of `writeWord`, and `exec_keeps_dmem`. -/
theorem memWriteAllOrNone : Obligations.MemWriteAllOrNone :=
  ⟨fun s addr v hm => ⟨fun hv => ⟨_, (memWrite_ok_iff s _ addr v).mpr ⟨hv, rfl⟩,
      fun j => read_writeWord_inside s.dmem addr.toNat j v hm,
      fun b => read_writeWord_outside s.dmem addr.toNat b v hm, rfl⟩, memWrite_invalid s addr v⟩,
    exec_keeps_dmem⟩

/-- Settles O25: `readWord_writeWord_same` at the address written, `readWord_writeWord_disjoint` at one
whose four bytes lie apart; `writeWord_wf` lets any number of such writes follow. -/
theorem memoryRoundTrip : Obligations.MemoryRoundTrip := by
  refine ⟨fun s t a v hm hw => ?_, fun s t a v b w hm hr hw hab => ?_⟩
  · obtain ⟨hv, rfl⟩ := (memWrite_ok_iff s t a v).mp hw
    exact ⟨writeWord_wf _ _ _ hm,
      (memRead_ok_iff _ a v).mpr ⟨hv, readWord_writeWord_same s.dmem a.toNat v hm⟩⟩
  · obtain ⟨_, rfl⟩ := (memWrite_ok_iff s t b w).mp hw
    obtain ⟨hv, hread⟩ := (memRead_ok_iff s a v).mp hr
    refine ⟨writeWord_wf _ _ _ hm, (memRead_ok_iff _ a v).mpr ⟨hv, ?_⟩⟩
    calc readWord (writeWord s.dmem b.toNat w) a.toNat
        = readWord s.dmem a.toNat := readWord_writeWord_disjoint _ _ _ _ hm hab
      _ = v := hread

end Sys2Proof.Machine
end

section
/-! The encoding statements (spec 30_encoding.md): each immediate bit by bit and as a signed value, which
of the three an instruction holds, and which words the classification rejects. -/

namespace Sys2Proof

/-! ## The bits of the immediates (R66 to R68) -/

/-- Above its own bits a sign extension repeats the last of them (R11). -/
theorem getLsbD_signExtend_min {n : Nat} (x : BitVec n) (i : Nat) (hi : i < 32) :
    (x.signExtend 32).getLsbD i = x.getLsbD (min i (n - 1)) := by
  rw [BitVec.getLsbD_signExtend, decide_eq_true hi, Bool.true_and, BitVec.msb_eq_getLsbD_last]
  split <;> congr 1 <;> omega

theorem getLsbD_immIOf (w : Word) (i : Nat) (hi : i < 32) :
    (immIOf w).getLsbD i = w.getLsbD (if i < 11 then 20 + i else 31) := by
  rw [immIOf, getLsbD_signExtend_min _ i hi, BitVec.getLsbD_extractLsb', decide_eq_true (by omega),
    Bool.true_and]
  congr 1
  split <;> omega

theorem getLsbD_immSOf (w : Word) (i : Nat) (hi : i < 32) :
    (immSOf w).getLsbD i =
      w.getLsbD (if i < 5 then 7 + i else if i < 11 then 20 + i else 31) := by
  rw [immSOf, getLsbD_signExtend_min _ i hi]
  simp only [BitVec.getLsbD_append, BitVec.getLsbD_extractLsb']
  interval_cases i <;> simp

theorem getLsbD_immBOf (w : Word) (i : Nat) (hi : i < 32) :
    (immBOf w).getLsbD i =
      if i = 0 then false
      else w.getLsbD (if i < 5 then 7 + i else if i < 11 then 20 + i else if i = 11 then 7 else 31) := by
  rw [immBOf, getLsbD_signExtend_min _ i hi]
  simp only [BitVec.getLsbD_append, BitVec.getLsbD_extractLsb']
  interval_cases i <;> simp

/-! ## Their signed values -/

theorem fitsImm12_immIOf (w : Word) : fitsImm12 (immIOf w) := fitsImm12_signExtend _

theorem fitsImm12_immSOf (w : Word) : fitsImm12 (immSOf w) := fitsImm12_signExtend _

/-- The source's property of the I-immediate: two's complement of the unsigned 12-bit field (R66). -/
theorem toInt_immIOf (w : Word) :
    (immIOf w).toInt =
      if w.getLsbD 31 then (w.toNat / 2 ^ 20 : Int) - 4096 else (w.toNat / 2 ^ 20 : Int) := by
  have hmsb : (w.extractLsb' 20 12).msb = w.getLsbD 31 := by simp [BitVec.msb_eq_getLsbD_last]
  have hnat : ((w.extractLsb' 20 12).toNat : Int) = w.toNat / 2 ^ 20 := by
    rw [BitVec.extractLsb'_toNat, Nat.shiftRight_eq_div_pow]
    omega
  rw [immIOf, BitVec.toInt_signExtend_of_le (by decide), BitVec.toInt_eq_msb_cond, hmsb, hnat]
  rfl

/-- A 12-bit value doubled by the fixed 0 bit is even and reaches no further than 4094. -/
theorem fitsBranchOffset_signExtend (x : BitVec 12) :
    fitsBranchOffset ((x ++ 0#1 : BitVec 13).signExtend 32) := by
  have htwice : ((x ++ 0#1 : BitVec 13).signExtend 32).toInt = 2 * x.toInt :=
    (BitVec.toInt_signExtend_of_le (by decide)).trans BitVec.toInt_append_zero
  have hlo := BitVec.le_toInt x
  have hhi := BitVec.toInt_lt (x := x)
  refine ⟨by omega, by omega, ?_⟩
  rw [getLsbD_signExtend_min _ 0 (by decide), BitVec.getLsbD_append]
  rfl

theorem fitsBranchOffset_immBOf (w : Word) : fitsBranchOffset (immBOf w) :=
  fitsBranchOffset_signExtend _

/-! ## The immediate an instruction holds (R69) -/

/-- Which of the word's three immediates an instruction decoded from it has to hold. -/
def HoldsImmediateOf (w : Word) : Instr → Prop
  | .addi _ _ imm | .lw _ _ imm => imm = immIOf w
  | .sw _ _ imm => imm = immSOf w
  | .beq _ _ offset | .bne _ _ offset => offset = immBOf w
  | .add _ _ _ | .sub _ _ _ | .and _ _ _ | .or _ _ _ => True

/-- The kind alone fixes the immediate, so the assembled instruction holds the one of its word. -/
theorem decode_holdsImmediateOf (w : Word) (i : Instr) (h : decode w = .ok i) :
    HoldsImmediateOf w i := by
  obtain ⟨k, _, rfl⟩ := decode_ok w i h
  cases k with
  | rtype op => cases op <;> trivial
  | _ => rfl

/-! ## The rejected words (R72) -/

/-- R72's condition for each class of rejected words, (a) to (f). -/
def Reject.Covers (op : BitVec 7) (f3 : BitVec 3) (f7 : BitVec 7) : Reject → Prop
  | .opcode => op ≠ 0x03#7 ∧ op ≠ 0x13#7 ∧ op ≠ 0x23#7 ∧ op ≠ 0x33#7 ∧ op ≠ 0x63#7
  | .rtypeFunct => op = 0x33#7 ∧
      (f3, f7) ∉ [(0#3, 0x00#7), (0#3, 0x20#7), (7#3, 0x00#7), (6#3, 0x00#7)]
  | .addiFunct3 => op = 0x13#7 ∧ f3 ≠ 0#3
  | .lwFunct3 => op = 0x03#7 ∧ f3 ≠ 2#3
  | .swFunct3 => op = 0x23#7 ∧ f3 ≠ 2#3
  | .branchFunct3 => op = 0x63#7 ∧ 2#3 ≤ f3

theorem covers_of_classify_error (op : BitVec 7) (f3 : BitVec 3) (f7 : BitVec 7) (e : Reject)
    (h : classify op f3 f7 = .error e) : e.Covers op f3 f7 := by
  unfold classify at h
  split_ifs at h with hr hadd hsub hand hor hi hi0 hl hl2 hs hs2 hb hb0 hb1 <;> cases h
  · exact ⟨hr, by simp [hadd, hsub, hand, hor]⟩
  · exact ⟨hi, hi0⟩
  · exact ⟨hl, hl2⟩
  · exact ⟨hs, hs2⟩
  · exact ⟨hb, by bv_omega⟩
  · exact ⟨hl, hi, hs, hr, hb⟩

theorem classify_of_covers (op : BitVec 7) (f3 : BitVec 3) (f7 : BitVec 7) (e : Reject)
    (h : e.Covers op f3 f7) : classify op f3 f7 = .error e := by
  cases e with
  | opcode =>
    obtain ⟨hl, hi, hs, hr, hb⟩ := h
    simp [classify, hl, hi, hs, hr, hb]
  | rtypeFunct =>
    obtain ⟨rfl, hpair⟩ := h
    simp only [List.mem_cons, Prod.mk.injEq, List.not_mem_nil, or_false, not_or] at hpair
    simp [classify, hpair]
  | branchFunct3 =>
    obtain ⟨rfl, hge⟩ := h
    simp [classify, show f3 ≠ 0#3 by bv_omega, show f3 ≠ 1#3 by bv_omega]
  | addiFunct3 | lwFunct3 | swFunct3 =>
    obtain ⟨rfl, hf3⟩ := h
    simp [classify, hf3]

/-- The decoder rejects a word under a class exactly when R72 puts the word in it. -/
theorem decode_error_iff_covers (w : Word) (e : Reject) :
    decode w = .error e ↔ e.Covers (opcodeField w) (funct3Field w) (funct7Field w) :=
  (decode_error_iff w e).trans ⟨covers_of_classify_error _ _ _ e, classify_of_covers _ _ _ e⟩

/-- R72's six classes are all there are. -/
theorem exists_reject_iff (p : Reject → Prop) :
    (∃ e, p e) ↔ p .opcode ∨ p .rtypeFunct ∨ p .addiFunct3 ∨ p .lwFunct3 ∨ p .swFunct3 ∨
      p .branchFunct3 := by
  constructor
  · rintro ⟨e, h⟩
    cases e <;> simp [h]
  · rintro (h | h | h | h | h | h) <;> exact ⟨_, h⟩

/-- All five opcodes end in 11. -/
theorem opcode_covers_of_lowBits (w : Word) (h : w.extractLsb' 0 2 ≠ 0b11#2) :
    Reject.Covers (opcodeField w) (funct3Field w) (funct7Field w) .opcode := by
  have hlow : (opcodeField w).extractLsb' 0 2 = w.extractLsb' 0 2 :=
    BitVec.extractLsb'_extractLsb'_of_le (by decide)
  rw [← hlow] at h
  refine ⟨?_, ?_, ?_, ?_, ?_⟩ <;> intro hop <;> rw [hop] at h <;> exact h (by decide)

end Sys2Proof

namespace Sys2Proof.Machine

/-- R143, R162: of the four ways to step, a rejected word leaves a Ready engine one. -/
theorem step_raises_of_decode_error (s : State) (w : Word) (e : Reject) (hready : halted s = false)
    (hpc : aligned s.pc = true) (hw : fetch s = some w) (hd : decode w = .error e) :
    step s = .next (raise s .unsupportedInstruction) := by
  rcases step_cases s with ⟨hh, _⟩ | ⟨_, ha, _⟩ | ⟨_, _, _, _, _, _, hs⟩ | ⟨_, _, _, _, hw', hd', _⟩
  · cases hready.symm.trans hh
  · cases hpc.symm.trans ha
  · exact hs
  · cases hw.symm.trans hw'
    cases hd.symm.trans hd'

/-- Settles O5: each class of R72 is the decoder's rejection of that name (`decode_error_iff_covers`), the
low bits rule out all five opcodes, and a rejected word leaves `step` only the raise. -/
theorem unsupportedWordsExactly : Obligations.UnsupportedWordsExactly :=
  ⟨fun w => (exists_congr (decode_error_iff_covers w)).trans (exists_reject_iff _),
    fun w h => ⟨.opcode, (decode_error_iff_covers w .opcode).mpr (opcode_covers_of_lowBits w h)⟩,
    fun s w e hready hpc hw hd =>
      ⟨_, step_raises_of_decode_error s w e hready hpc hw hd, raise_haltCause s _⟩⟩

/-- Settles O7: `getLsbD_immIOf` below and above bit 11, and `toInt_immIOf`. -/
theorem immediateI : Obligations.ImmediateI := by
  refine ⟨fun w => ⟨fun i hlo hi => ?_, fun i hi => ?_, (fitsImm12_immIOf w).1, (fitsImm12_immIOf w).2,
    toInt_immIOf w, fun _ _ _ h => decode_holdsImmediateOf w _ h,
    fun _ _ _ h => decode_holdsImmediateOf w _ h⟩, by decide, by decide⟩
  · rw [getLsbD_immIOf w i hi, if_neg (by omega)]
  · rw [getLsbD_immIOf w i (by omega), if_pos hi]

/-- Settles O8: `getLsbD_immSOf` at each of its three fields. -/
theorem immediateS : Obligations.ImmediateS := by
  refine ⟨fun w => ⟨fun i hlo hi => ?_, fun i hlo hi => ?_, fun i hi => ?_, (fitsImm12_immSOf w).1,
    (fitsImm12_immSOf w).2, fun _ _ _ h => decode_holdsImmediateOf w _ h⟩, by decide⟩
  · rw [getLsbD_immSOf w i hi, if_neg (by omega), if_neg (by omega)]
  · rw [getLsbD_immSOf w i (by omega), if_neg (by omega), if_pos hi]
  · rw [getLsbD_immSOf w i (by omega), if_pos hi]

/-- Settles O9: `getLsbD_immBOf` at each of its fields; evenness and range are `fitsBranchOffset`. -/
theorem immediateB : Obligations.ImmediateB := by
  refine ⟨fun w => ?_, by decide, by decide⟩
  obtain ⟨hmin, hmax, heven⟩ := fitsBranchOffset_immBOf w
  refine ⟨fun i hlo hi => ?_, getLsbD_immBOf w 11 (by decide), fun i hlo hi => ?_,
    fun i hlo hi => ?_, heven, hmin, hmax, fun _ _ _ h => decode_holdsImmediateOf w _ h,
    fun _ _ _ h => decode_holdsImmediateOf w _ h⟩
  · rw [getLsbD_immBOf w i hi, if_neg (by omega), if_neg (by omega), if_neg (by omega), if_neg (by omega)]
  · rw [getLsbD_immBOf w i (by omega), if_neg (by omega), if_neg (by omega), if_pos hi]
  · rw [getLsbD_immBOf w i (by omega), if_neg (by omega), if_pos hi]

end Sys2Proof.Machine
end

section
/-! The decoder's fields (spec 40_decode_control.md): each as a number cut out of the word's number. -/

namespace Sys2Proof

/-- A field of a word as a number: the word's without the `start` bits below, modulo the field's width (R61). -/
theorem toNat_extractLsb'_eq_div_mod (w : Word) (start len : Nat) :
    (w.extractLsb' start len).toNat = w.toNat / 2 ^ start % 2 ^ len := by
  rw [BitVec.extractLsb'_toNat, Nat.shiftRight_eq_div_pow]

theorem toNat_opcodeField (w : Word) : (opcodeField w).toNat = w.toNat % 2 ^ 7 := by
  rw [opcodeField, toNat_extractLsb'_eq_div_mod, Nat.pow_zero, Nat.div_one]

/-- The topmost field needs no modulus: a word's number has no bits above it. -/
theorem toNat_funct7Field (w : Word) : (funct7Field w).toNat = w.toNat / 2 ^ 25 := by
  rw [funct7Field, toNat_extractLsb'_eq_div_mod]
  exact Nat.mod_eq_of_lt (Nat.div_lt_of_lt_mul w.isLt)

end Sys2Proof

namespace Sys2Proof.Machine

/-- Settles O6: the six fields are the word's `extractLsb'` slices read as numbers, the three immediates
are R80's own expressions, and the corner words and the worked example evaluate. -/
theorem decoderFields : Obligations.DecoderFields :=
  ⟨fun w => ⟨toNat_opcodeField w, toNat_extractLsb'_eq_div_mod w 7 5,
      toNat_extractLsb'_eq_div_mod w 12 3, toNat_extractLsb'_eq_div_mod w 15 5,
      toNat_extractLsb'_eq_div_mod w 20 5, toNat_funct7Field w, rfl, rfl, rfl⟩,
    by decide, by decide, by decide⟩

end Sys2Proof.Machine
end

section
/-! The integer statements (spec 41_integer_alu.md): a word in a row of the opcode table decodes as that
row says, and what every instruction that ends in `writeBack` leaves. -/

namespace Sys2Proof

/-! ## Words of a row of the opcode table (R71) -/

/-- A field inside the mask survives the masking, so a word of the row has the match's field. -/
theorem extractLsb'_of_row {w mask mtch : Word} (h : w &&& mask = mtch) (start len : Nat)
    (hmask : mask.extractLsb' start len = BitVec.allOnes len) :
    w.extractLsb' start len = mtch.extractLsb' start len := by
  rw [← h, BitVec.extractLsb'_and, hmask, BitVec.and_allOnes]

/-- Under the R-type mask, which holds all three selecting fields, a word is classified as its match. -/
theorem classify_of_rtypeRow {w mtch : Word} (h : w &&& 0xFE00707F#32 = mtch) :
    classify (opcodeField w) (funct3Field w) (funct7Field w) =
      classify (opcodeField mtch) (funct3Field mtch) (funct7Field mtch) := by
  have hop : opcodeField w = opcodeField mtch := extractLsb'_of_row h 0 7 (by decide)
  have hf3 : funct3Field w = funct3Field mtch := extractLsb'_of_row h 12 3 (by decide)
  have hf7 : funct7Field w = funct7Field mtch := extractLsb'_of_row h 25 7 (by decide)
  rw [hop, hf3, hf7]

/-- The row of `addi` leaves `funct7`'s bits to the immediate, and its kind does not read them. -/
theorem classify_of_addiRow {w : Word} (h : w &&& 0x0000707F#32 = 0x00000013#32) :
    classify (opcodeField w) (funct3Field w) (funct7Field w) = .ok .addi := by
  have hop : opcodeField w = 0x13#7 := extractLsb'_of_row h 0 7 (by decide)
  have hf3 : funct3Field w = 0#3 := extractLsb'_of_row h 12 3 (by decide)
  rw [hop, hf3]
  rfl

/-- The other direction of `decode_ok`. -/
theorem decode_of_classify {w : Word} {k : Kind}
    (h : classify (opcodeField w) (funct3Field w) (funct7Field w) = .ok k) :
    decode w = .ok (assemble k (decodeFields w)) := by
  have h' : classify (decodeFields w).opcode (decodeFields w).funct3 (decodeFields w).funct7 = .ok k := h
  rw [decode, h']

/-- An R-type word decodes to the kind its match is classified as. -/
theorem decode_of_rtypeRow {w mtch : Word} {k : Kind} (h : w &&& 0xFE00707F#32 = mtch)
    (hk : classify (opcodeField mtch) (funct3Field mtch) (funct7Field mtch) = .ok k) :
    decode w = .ok (assemble k (decodeFields w)) :=
  decode_of_classify ((classify_of_rtypeRow h).trans hk)

/-- An R-type word is rejected under the class its match is rejected under. -/
theorem decode_error_of_rtypeRow {w mtch : Word} {e : Reject} (h : w &&& 0xFE00707F#32 = mtch)
    (he : classify (opcodeField mtch) (funct3Field mtch) (funct7Field mtch) = .error e) :
    decode w = .error e :=
  (decode_error_iff w e).mpr ((classify_of_rtypeRow h).trans he)

end Sys2Proof

namespace Sys2Proof.Machine

/-! ## What `writeBack` leaves -/

/-- `writeBack_spec` in the statements' terms: destination, frame, `pc`, flags. -/
theorem writeBack_wroteBack (s : State) (rd : RegIdx) (v : Word) {k : Kind} {flags : BitVec 9}
    (hflags : ctrlBits (controlFlags k) = flags) : WroteBack rd v flags s (writeBack s k rd v) := by
  obtain ⟨hreg, hpc, hctrl, hdmem, himem, hcause, hcfg, _⟩ := writeBack_spec s k rd v
  refine ⟨?_, fun r hr => ?_, hpc, ?_, fun a => ?_, ⟨himem, hcfg⟩, hcause⟩
  · rw [hreg]
    by_cases hrd : rd = 0 <;> simp [hrd]
  · rw [hreg, if_neg fun h => hr h.2]
  · rw [hctrl, hflags]
  · rw [hdmem]

/-- With destination `x0` the register file is left as it is, cell 0 included (R22, R108). -/
theorem writeBack_zero (s : State) (k : Kind) (v : Word) :
    writeBack s k 0 v = { s with pc := s.pc + 4#32, ctrl := controlFlags k } := rfl

/-- Each of the five integer instructions writes back one value, and data memory has no part in it: the
kind sets RegWrite, and over any other data memory the value is the same (R109). -/
theorem exec_integer {rd rs1 rs2 : RegIdx} {imm : Word} {i : Instr}
    (hi : i ∈ [Instr.add rd rs1 rs2, .sub rd rs1 rs2, .and rd rs1 rs2, .or rd rs1 rs2, .addi rd rs1 imm])
    (s : State) :
    (controlFlags (kindOf i)).regWrite = true ∧ ∃ v, exec i s = .next (writeBack s (kindOf i) rd v) ∧
      ∀ m, exec i { s with dmem := m } = .next (writeBack { s with dmem := m } (kindOf i) rd v) := by
  simp only [List.mem_cons, List.not_mem_nil, or_false] at hi
  obtain rfl | rfl | rfl | rfl | rfl := hi <;> exact ⟨rfl, _, rfl, fun _ => rfl⟩

/-! ## The statements -/

/-- Settles O15: the row's words by `decode_of_rtypeRow`, the rest by `writeBack_wroteBack`. -/
theorem addWritesSum : Obligations.AddWritesSum :=
  ⟨fun _ h => decode_of_rtypeRow (k := .rtype .add) h (by decide),
    fun rd _ _ s => ⟨_, rfl, writeBack_wroteBack s rd _ (ctrlBits_rtype .add)⟩⟩

/-- Settles O16: as `addWritesSum`, the value being the ALU's difference with minuend rs1. -/
theorem subWritesDifference : Obligations.SubWritesDifference :=
  ⟨fun _ h => decode_of_rtypeRow (k := .rtype .sub) h (by decide),
    fun rd _ _ s => ⟨_, rfl, writeBack_wroteBack s rd _ (ctrlBits_rtype .sub)⟩⟩

/-- Settles O17: as `addWritesSum`; funct7 0x20 under funct3 7 is classified as no R-type pair. -/
theorem andWritesConjunction : Obligations.AndWritesConjunction :=
  ⟨fun _ h => decode_of_rtypeRow (k := .rtype .and) h (by decide),
    fun _ h => ⟨.rtypeFunct, decode_error_of_rtypeRow h (by decide)⟩,
    fun rd _ _ s => ⟨_, rfl, writeBack_wroteBack s rd _ (ctrlBits_rtype .and)⟩⟩

/-- Settles O18: as `addWritesSum`; funct7 0x20 under funct3 6 is classified as no R-type pair. -/
theorem orWritesDisjunction : Obligations.OrWritesDisjunction :=
  ⟨fun _ h => decode_of_rtypeRow (k := .rtype .or) h (by decide),
    fun _ h => ⟨.rtypeFunct, decode_error_of_rtypeRow h (by decide)⟩,
    fun rd _ _ s => ⟨_, rfl, writeBack_wroteBack s rd _ (ctrlBits_rtype .or)⟩⟩

/-- Settles O19: the row's words by `classify_of_addiRow`, the rejected ones by R72's class (c). -/
theorem addiWritesSum : Obligations.AddiWritesSum :=
  ⟨fun _ h => decode_of_classify (classify_of_addiRow h),
    fun w hop hf3 => ⟨.addiFunct3, (decode_error_iff_covers w .addiFunct3).mpr ⟨hop, hf3⟩⟩,
    fun rd _ _ s => ⟨_, rfl, writeBack_wroteBack s rd _ ctrlBits_addi⟩⟩

/-- Settles O20: by `exec_integer` all five are one `writeBack`, which keeps data memory and the latch and
commutes with replacing data memory; without a cause only the end test of `halted` is left. -/
theorem integerInstructionsOnlyCompute : Obligations.IntegerInstructionsOnlyCompute := by
  intro rd rs1 rs2 imm i hi s
  obtain ⟨_, v, hs, hm⟩ := exec_integer hi s
  obtain ⟨_, hpc, _, hdmem, himem, hcause, _⟩ := writeBack_spec s (kindOf i) rd v
  refine ⟨_, hs, hdmem, hcause, hpc, fun m => ?_, fun hnone => ?_⟩
  · rw [hm, writeBack_dmem_comm]
  · rw [halted_iff, hcause, hpc, himem]
    simp [hnone]

/-- Settles O14: the sum and the difference by `BitVec`'s own equations, the bitwise two bit by bit; the
funct pairs and the two further uses are the definitions. -/
theorem aluOperations : Obligations.AluOperations := by
  refine ⟨fun a b => ⟨BitVec.toNat_add a b, BitVec.toInt_sub, ?_, fun _ => BitVec.getLsbD_and,
    fun _ => BitVec.getLsbD_or⟩, ?_, rfl, rfl, rfl, rfl, fun _ _ _ _ => ⟨rfl, rfl⟩⟩
  · rw [alu, BitVec.toNat_sub]
    omega
  · intro op
    cases op <;> decide

/-- Settles O21: the five integer instructions by `exec_integer`, `lw` by `execLw_valid`; either way the
next state is `writeBack` with destination 0, which `writeBack_zero` writes out. -/
theorem destinationZeroRunsInFull : Obligations.DestinationZeroRunsInFull := by
  refine ⟨fun rs1 rs2 imm i hi s => ?_, fun rs1 imm s hv => ?_, fun s => ⟨by decide, _, rfl, ?_⟩⟩
  · obtain ⟨hwrite, v, hs, _⟩ := exec_integer hi s
    rw [writeBack_zero] at hs
    exact ⟨_, hs, hwrite, readReg_zero _, rfl⟩
  · exact ⟨_, execLw_valid 0 rs1 imm s hv, rfl, writeBack_zero s .lw _⟩
  · exact writeBack_zero s .addi _

end Sys2Proof.Machine
end

section
/-! Encoder, decoder and control unit against each other (spec 30_encoding.md, 40_decode_control.md): both
directions of the round trip, the rows of the opcode table, and the control unit's answer. -/

namespace Sys2Proof

open Machine (kindOf)

/-! ## The encoder's word, decoded (R62 to R68) -/

theorem immIOf_encodeI (imm : Word) (rs1 : RegIdx) (f3 : BitVec 3) (rd : RegIdx) (op : BitVec 7)
    (h : fitsImm12 imm) : immIOf (encodeI imm rs1 f3 rd op) = imm := by
  rw [immIOf, immBits_encodeI, signExtend_imm12 imm h]

theorem immSOf_encodeS (imm : Word) (rs2 rs1 : RegIdx) (f3 : BitVec 3) (op : BitVec 7)
    (h : fitsImm12 imm) : immSOf (encodeS imm rs2 rs1 f3 op) = imm := by
  rw [immSOf, immBits_encodeS, signExtend_imm12 imm h]

theorem immBOf_encodeB (imm : Word) (rs2 rs1 : RegIdx) (f3 : BitVec 3) (op : BitVec 7)
    (h : fitsBranchOffset imm) : immBOf (encodeB imm rs2 rs1 f3 op) = imm := by
  have ⟨_, _, heven⟩ := h
  rw [immBOf, immBits_encodeB _ _ _ _ _ heven, signExtend_branchOffset imm h]

/-- The selecting fields the encoder writes are those its instruction's kind is classified by. -/
theorem classify_encode (i : Instr) :
    classify (opcodeField (encode i)) (funct3Field (encode i)) (funct7Field (encode i)) =
      .ok (kindOf i) := by
  cases i <;> simp [encode, classify, kindOf]

/-- The operands the decoder reads back are the instruction's own, an immediate if its format holds it. -/
theorem assemble_encode (i : Instr) (h : i.WellFormed) :
    assemble (kindOf i) (decodeFields (encode i)) = i := by
  cases i with
  | add rd rs1 rs2 | sub rd rs1 rs2 | and rd rs1 rs2 | or rd rs1 rs2 =>
    simp [kindOf, assemble, decodeFields, encode]
  | addi rd rs1 imm | lw rd rs1 imm =>
    simp [kindOf, assemble, decodeFields, encode, immIOf_encodeI _ _ _ _ _ h]
  | sw rs2 rs1 imm => simp [kindOf, assemble, decodeFields, encode, immSOf_encodeS _ _ _ _ _ h]
  | beq rs1 rs2 offset | bne rs1 rs2 offset =>
    simp [kindOf, assemble, decodeFields, encode, immBOf_encodeB _ _ _ _ _ h]

/-! ## A word's fields, encoded: each format tiles the word -/

section Tiling
variable (w : Word)

theorem encodeR_fields :
    encodeR (funct7Field w) (regOfBits (rs2Field w)) (regOfBits (rs1Field w)) (funct3Field w)
      (regOfBits (rdField w)) (opcodeField w) = w := by
  apply BitVec.eq_of_getLsbD_eq; intro i hi
  simp only [getLsbD_encodeR, bitsOfReg_regOfBits, funct7Field, rs2Field, rs1Field, funct3Field,
    rdField, opcodeField, BitVec.getLsbD_append, BitVec.getLsbD_extractLsb']
  interval_cases i <;> simp

theorem encodeI_fields :
    encodeI (immIOf w) (regOfBits (rs1Field w)) (funct3Field w) (regOfBits (rdField w))
      (opcodeField w) = w := by
  apply BitVec.eq_of_getLsbD_eq; intro i hi
  simp only [getLsbD_encodeI, bitsOfReg_regOfBits, rs1Field, funct3Field, rdField, opcodeField,
    BitVec.getLsbD_append, BitVec.getLsbD_extractLsb']
  interval_cases i <;> simp [-BitVec.getLsbD_eq_getElem, getLsbD_immIOf]

theorem encodeS_fields :
    encodeS (immSOf w) (regOfBits (rs2Field w)) (regOfBits (rs1Field w)) (funct3Field w)
      (opcodeField w) = w := by
  apply BitVec.eq_of_getLsbD_eq; intro i hi
  simp only [getLsbD_encodeS, bitsOfReg_regOfBits, rs2Field, rs1Field, funct3Field, opcodeField,
    BitVec.getLsbD_append, BitVec.getLsbD_extractLsb']
  interval_cases i <;> simp [-BitVec.getLsbD_eq_getElem, getLsbD_immSOf]

theorem encodeB_fields :
    encodeB (immBOf w) (regOfBits (rs2Field w)) (regOfBits (rs1Field w)) (funct3Field w)
      (opcodeField w) = w := by
  apply BitVec.eq_of_getLsbD_eq; intro i hi
  simp only [getLsbD_encodeB, bitsOfReg_regOfBits, rs2Field, rs1Field, funct3Field, opcodeField,
    BitVec.getLsbD_append, BitVec.getLsbD_extractLsb']
  interval_cases i <;> simp [-BitVec.getLsbD_eq_getElem, getLsbD_immBOf]

end Tiling

/-- The classification fixes the opcode and functs to what the encoder writes for the kind, and the
format's tiling gives the other bits. -/
theorem encode_assemble (w : Word) (k : Kind)
    (h : classify (opcodeField w) (funct3Field w) (funct7Field w) = .ok k) :
    encode (assemble k (decodeFields w)) = w := by
  have hR := encodeR_fields w
  have hI := encodeI_fields w
  have hS := encodeS_fields w
  have hB := encodeB_fields w
  rcases classify_ok _ _ _ _ h with
    ⟨hop, hrtype⟩ | ⟨hop, hf3, rfl⟩ | ⟨hop, hf3, rfl⟩ | ⟨hop, hf3, rfl⟩ | ⟨hop, hf3, rfl⟩ | ⟨hop, hf3, rfl⟩
  · rcases hrtype with ⟨hf3, hf7, rfl⟩ | ⟨hf3, hf7, rfl⟩ | ⟨hf3, hf7, rfl⟩ | ⟨hf3, hf7, rfl⟩ <;>
      rwa [hop, hf3, hf7] at hR
  · rwa [hop, hf3] at hI
  · rwa [hop, hf3] at hI
  · rwa [hop, hf3] at hS
  · rwa [hop, hf3] at hB
  · rwa [hop, hf3] at hB

/-- Every assembled instruction holds its word's immediate, which is in range (R66 to R68). -/
theorem wellFormed_assemble (w : Word) (k : Kind) : (assemble k (decodeFields w)).WellFormed := by
  cases k with
  | rtype op => cases op <;> trivial
  | addi | lw => exact fitsImm12_immIOf w
  | sw => exact fitsImm12_immSOf w
  | beq | bne => exact fitsBranchOffset_immBOf w

theorem encode_of_decode {w : Word} {i : Instr} (h : decode w = .ok i) : encode i = w := by
  obtain ⟨k, hk, rfl⟩ := decode_ok w i h
  exact encode_assemble w k hk

/-! ## The rows of the opcode table (R71) -/

open Laws.EncodingRow in
/-- Every instruction's encoding is in its row. -/
theorem encode_in_row (i : Instr) : Statement i :=
  match i with
  | .add rd rs1 rs2 => add rd rs1 rs2
  | .sub rd rs1 rs2 => sub rd rs1 rs2
  | .and rd rs1 rs2 => and rd rs1 rs2
  | .or rd rs1 rs2 => or rd rs1 rs2
  | .addi rd rs1 imm => addi rd rs1 imm
  | .lw rd rs1 imm => lw rd rs1 imm
  | .sw rs2 rs1 imm => sw rs2 rs1 imm
  | .beq rs1 rs2 offset => beq rs1 rs2 offset
  | .bne rs1 rs2 offset => bne rs1 rs2 offset

open Laws.EncodingRow in
theorem row_of_decode {w : Word} {i : Instr} (h : decode w = .ok i) : w &&& rowMask i = rowMatch i :=
  encode_of_decode h ▸ encode_in_row i

/-- A word of a row without funct7 decodes to the kind its match is classified as under any funct7. -/
theorem decode_of_funct3Row {w mtch : Word} {k : Kind} (h : w &&& 0x0000707F#32 = mtch)
    (hk : ∀ f7, classify (opcodeField mtch) (funct3Field mtch) f7 = .ok k) :
    decode w = .ok (assemble k (decodeFields w)) := by
  have hop : opcodeField w = opcodeField mtch := extractLsb'_of_row h 0 7 (by decide)
  have hf3 : funct3Field w = funct3Field mtch := extractLsb'_of_row h 12 3 (by decide)
  apply decode_of_classify
  rw [hop, hf3, hk]

/-! ## Kinds -/

@[simp] theorem kindOf_assemble (k : Kind) (f : Fields) : kindOf (assemble k f) = k := by
  cases k with
  | rtype op => cases op <;> rfl
  | _ => rfl

/-- The decoder gives an instruction of a kind exactly when the classification gives the kind. -/
theorem exists_decode_kind_iff (w : Word) (k : Kind) :
    (∃ i, decode w = .ok i ∧ kindOf i = k) ↔
      classify (opcodeField w) (funct3Field w) (funct7Field w) = .ok k := by
  constructor
  · rintro ⟨i, hi, rfl⟩
    obtain ⟨k, hk, rfl⟩ := decode_ok w i hi
    rw [hk, kindOf_assemble]
  · exact fun hk => ⟨_, decode_of_classify hk, kindOf_assemble k _⟩

end Sys2Proof

namespace Sys2Proof.Machine

theorem controlUnit_ok_iff (op : BitVec 7) (f3 : BitVec 3) (f7 : BitVec 7) (k : Kind)
    (flags : ControlSignals) :
    controlUnit op f3 f7 = .ok (k, flags) ↔ flags = controlFlags k ∧ classify op f3 f7 = .ok k := by
  unfold controlUnit
  cases classify op f3 f7 with
  | error e => simp
  | ok k' =>
    simp only [Except.ok.injEq, Prod.mk.injEq]
    constructor
    · rintro ⟨rfl, rfl⟩; exact ⟨rfl, rfl⟩
    · rintro ⟨rfl, rfl⟩; exact ⟨rfl, rfl⟩

theorem controlUnit_error_iff (op : BitVec 7) (f3 : BitVec 3) (f7 : BitVec 7) (e : Reject) :
    controlUnit op f3 f7 = .error e ↔ classify op f3 f7 = .error e := by
  unfold controlUnit
  cases classify op f3 f7 <;> simp

/-! ## The statements -/

/-- Settles O2: the encoded word's kind by `classify_encode`, its operands by `assemble_encode`. -/
theorem decodeOfEncode : Obligations.DecodeOfEncode := by
  intro i h
  rw [decode_of_classify (classify_encode i), assemble_encode i h]

/-- Settles O3: a decoded word is its kind assembled with its fields (`decode_ok`), whose immediate is in
range and which encodes back to the word field by field. -/
theorem encodeOfDecode : Obligations.EncodeOfDecode := by
  intro w i h
  obtain ⟨k, hk, rfl⟩ := decode_ok w i h
  exact ⟨wellFormed_assemble w k, encode_assemble w k hk⟩

/-- Settles O4: a word of a row decodes as its match does; back, the word is the encoding of what it
decodes to, and every encoding is in its instruction's row (`row_of_decode`). -/
theorem opcodeTableRows : Obligations.OpcodeTableRows := fun _ =>
  ⟨⟨fun h => ⟨_, _, _, decode_of_rtypeRow (k := .rtype .add) h rfl⟩,
      fun ⟨_, _, _, h⟩ => row_of_decode h⟩,
    ⟨fun h => ⟨_, _, _, decode_of_rtypeRow (k := .rtype .sub) h rfl⟩,
      fun ⟨_, _, _, h⟩ => row_of_decode h⟩,
    ⟨fun h => ⟨_, _, _, decode_of_rtypeRow (k := .rtype .and) h rfl⟩,
      fun ⟨_, _, _, h⟩ => row_of_decode h⟩,
    ⟨fun h => ⟨_, _, _, decode_of_rtypeRow (k := .rtype .or) h rfl⟩,
      fun ⟨_, _, _, h⟩ => row_of_decode h⟩,
    ⟨fun h => ⟨_, _, _, decode_of_funct3Row (k := .addi) h fun _ => rfl⟩,
      fun ⟨_, _, _, h⟩ => row_of_decode h⟩,
    ⟨fun h => ⟨_, _, _, decode_of_funct3Row (k := .lw) h fun _ => rfl⟩,
      fun ⟨_, _, _, h⟩ => row_of_decode h⟩,
    ⟨fun h => ⟨_, _, _, decode_of_funct3Row (k := .sw) h fun _ => rfl⟩,
      fun ⟨_, _, _, h⟩ => row_of_decode h⟩,
    ⟨fun h => ⟨_, _, _, decode_of_funct3Row (k := .beq) h fun _ => rfl⟩,
      fun ⟨_, _, _, h⟩ => row_of_decode h⟩,
    ⟨fun h => ⟨_, _, _, decode_of_funct3Row (k := .bne) h fun _ => rfl⟩,
      fun ⟨_, _, _, h⟩ => row_of_decode h⟩⟩

/-- Settles O10: control unit and decoder both answer what `classify` answers for the word's fields. -/
theorem controlAgreesWithDecode : Obligations.ControlAgreesWithDecode := by
  refine fun w => ⟨fun k flags => ?_, fun e => ?_⟩
  · rw [controlUnit_ok_iff, exists_decode_kind_iff]
  · rw [controlUnit_error_iff, decode_error_iff]

/-- Settles O1: nine closed words. -/
theorem specWordsDecode : Obligations.SpecWordsDecode := by
  unfold Obligations.SpecWordsDecode
  decide

end Sys2Proof.Machine
end

section
/-! Load and store (spec 42_load_store.md, 20_memory.md): the readings of a valid address, a load's and a
store's two ends, and which step changes memory or a register. -/

namespace Sys2Proof.Machine

/-! ## Valid addresses (R44) -/

theorem validAddress_iff_signed (c : Config) (addr : Word) :
    validAddress c addr = true ↔ 0 ≤ addr.toInt ∧ addr.toInt + 3 < (c.dmemBytes : Int) := by
  simp [validAddress]

/-- Read as an unsigned number: a capacity below 2^31 leaves no address with the sign bit set. -/
theorem validAddress_iff_unsigned {c : Config} (hc : c.Valid) (addr : Word) :
    validAddress c addr = true ↔ addr.toNat ≤ c.dmemBytes - 4 := by
  obtain ⟨hmin, hmax, _⟩ := hc
  rw [validAddress_iff_signed, BitVec.toInt_eq_toNat_cond]
  split <;> omega

theorem validAddress_eq_false_iff_unsigned {c : Config} (hc : c.Valid) (addr : Word) :
    validAddress c addr = false ↔ c.dmemBytes - 4 < addr.toNat := by
  rw [← Bool.not_eq_true, validAddress_iff_unsigned hc, not_le]

/-- Where the wrapped sum differs from the unbounded one, neither is valid. -/
theorem validAddress_add_iff {c : Config} (hc : c.Valid) (base imm : Word) (himm : fitsImm12 imm) :
    validAddress c (base + imm) = true ↔
      0 ≤ base.toInt + imm.toInt ∧ base.toInt + imm.toInt + 3 < (c.dmemBytes : Int) := by
  obtain ⟨hmin, hmax, _⟩ := hc
  obtain ⟨hlo, hhi⟩ := himm
  have hbaseLo := BitVec.le_toInt base
  have hbaseHi := BitVec.toInt_lt (x := base)
  rw [validAddress_iff_signed, BitVec.toInt_add, Int.bmod_def]
  split <;> omega

/-! ## What a raise leaves (R161) -/

/-- Any cause halts the engine (R141). -/
theorem halted_raise (s : State) {c : HaltCause} (hc : c ≠ .none) : halted (raise s c) = true :=
  (halted_iff _).mpr (.inl hc)

theorem raisedWith_raise (s : State) (c : HaltCause) {k : Kind} {flags : BitVec 9}
    (hflags : ctrlBits (controlFlags k) = flags) :
    RaisedWith c flags s (raise (setCtrl s (controlFlags k)) c) :=
  ⟨rfl, hflags, fun _ => rfl, fun _ => rfl, rfl, rfl, rfl⟩

/-! ## Registers (R22, R23) -/

theorem readReg_writeBack_same (s : State) (k : Kind) {rd : RegIdx} (v : Word) (hrd : rd ≠ 0) :
    readReg (writeBack s k rd v) rd = v := by
  obtain ⟨hreg, _⟩ := writeBack_spec s k rd v
  rw [hreg, if_pos ⟨hrd, rfl⟩]

theorem readReg_writeBack_other (s : State) (k : Kind) {rd r : RegIdx} (v : Word) (h : rd ≠ r) :
    readReg (writeBack s k rd v) r = readReg s r := by
  obtain ⟨hreg, _⟩ := writeBack_spec s k rd v
  rw [hreg, if_neg fun hr => h hr.2.symm]

@[simp] theorem readReg_resolveBranch (s : State) (taken : Bool) (offset : Word) (r : RegIdx) :
    readReg (resolveBranch s taken offset) r = readReg s r := by
  obtain ⟨hregs, _⟩ := resolveBranch_frame s taken offset
  simp [readReg, hregs]

/-- Everything an instruction can do to registers, memory and `pc`: a write-back to its destination, a
checked store, a branch, or a raise. -/
theorem exec_cases {i : Instr} {s t : State} (h : exec i s = .next t) :
    (∃ k rd v, destination i = some rd ∧ t = writeBack s k rd v) ∨
    (∃ rs2 rs1 imm, i = .sw rs2 rs1 imm ∧
      validAddress s.cfg (effectiveAddress s rs1 imm) = true ∧
      t = advance { setCtrl s (controlFlags .sw) with
        dmem := writeWord s.dmem (effectiveAddress s rs1 imm).toNat (readReg s rs2) }) ∨
    (∃ f taken offset, t = resolveBranch (setCtrl s f) taken offset) ∨
    (∃ f c, t = raise (setCtrl s f) c) := by
  cases i with
  | lw rd rs1 imm =>
    cases hv : validAddress s.cfg (effectiveAddress s rs1 imm) with
    | true => cases (execLw_valid rd rs1 imm s hv).symm.trans h; exact .inl ⟨_, _, _, rfl, rfl⟩
    | false =>
      cases (execLw_invalid rd rs1 imm s hv).symm.trans h
      exact .inr (.inr (.inr ⟨_, _, rfl⟩))
  | sw rs2 rs1 imm =>
    cases hv : validAddress s.cfg (effectiveAddress s rs1 imm) with
    | true =>
      cases (execSw_valid rs2 rs1 imm s hv).symm.trans h
      exact .inr (.inl ⟨_, _, _, rfl, hv, rfl⟩)
    | false =>
      cases (execSw_invalid rs2 rs1 imm s hv).symm.trans h
      exact .inr (.inr (.inr ⟨_, _, rfl⟩))
  | beq _ _ _ | bne _ _ _ => cases h; exact .inr (.inr (.inl ⟨_, _, _, rfl⟩))
  | _ => cases h; exact .inl ⟨_, _, _, rfl, rfl⟩

/-- An instruction changes no register but its destination. -/
theorem readReg_exec {i : Instr} {s t : State} (h : exec i s = .next t) (r : RegIdx)
    (hr : destination i ≠ some r) : readReg t r = readReg s r := by
  rcases exec_cases h with ⟨k, rd, v, hrd, rfl⟩ | ⟨_, _, _, _, _, rfl⟩ | ⟨f, taken, offset, rfl⟩ |
    ⟨f, c, rfl⟩
  · exact readReg_writeBack_other s k v fun heq => hr (heq ▸ hrd)
  · rfl
  · exact readReg_resolveBranch _ taken offset r
  · rfl

/-- What a store at a valid address leaves for the instructions after it. -/
theorem execSw_completes (rs2 rs1 : RegIdx) (imm : Word) (s : State)
    (h : validAddress s.cfg (effectiveAddress s rs1 imm) = true) :
    ∃ t, exec (.sw rs2 rs1 imm) s = .next t ∧ t.cfg = s.cfg ∧ RegsUnchanged s t ∧
      t.dmem = writeWord s.dmem (effectiveAddress s rs1 imm).toNat (readReg s rs2) :=
  ⟨_, execSw_valid rs2 rs1 imm s h, rfl, fun _ => rfl, rfl⟩

/-! ## What a step that goes on did (R140) -/

/-- `step_cases` for a step that answers a next state: the no-op, a rejection, or an instruction. -/
theorem step_next_cases {s t : State} (h : step s = .next t) :
    (halted s = true ∧ t = s) ∨
    (halted s = false ∧ t = raise s .unsupportedInstruction ∧
      ∃ w e, fetch s = some w ∧ decode w = .error e) ∨
    (halted s = false ∧ aligned s.pc = true ∧
      ∃ w i, fetch s = some w ∧ decode w = .ok i ∧ exec i s = .next t) := by
  rcases step_cases s with ⟨hh, hs⟩ | ⟨_, _, hs⟩ | ⟨w, e, hh, _, hw, hd, hs⟩ |
    ⟨w, i, hh, ha, hw, hd, hs⟩ <;> rw [hs] at h
  · cases h; exact .inl ⟨hh, rfl⟩
  · cases h
  · cases h; exact .inr (.inl ⟨hh, rfl, w, e, hw, hd⟩)
  · exact .inr (.inr ⟨hh, ha, w, i, hw, hd, h⟩)

/-! ## The statements -/

/-- Settles O22: each reading is one lemma above, the raise is the primitives' own, and the bound of the
default capacity is the unsigned reading's. -/
theorem validAddressReadings : Obligations.ValidAddressReadings :=
  ⟨fun c addr hc => ⟨validAddress_iff_signed c addr, validAddress_iff_unsigned hc addr⟩,
    fun _ base imm hc himm => validAddress_add_iff hc base imm himm,
    fun s addr v hv => ⟨memRead_invalid s addr hv, memWrite_invalid s addr v hv⟩,
    fun addr => validAddress_iff_unsigned (by decide) addr⟩

/-- Settles O26: a valid load is `writeBack` of the word read, whose bytes are memory's. -/
theorem loadWordCompletes : Obligations.LoadWordCompletes := fun rd rs1 imm s hc hle =>
  ⟨_, _, execLw_valid rd rs1 imm s ((validAddress_iff_unsigned hc _).mpr hle),
    writeBack_wroteBack s rd _ ctrlBits_lw, extractLsb'_readWord s.dmem _⟩

/-- Settles O27: an invalid load is a raise under `lw`'s flags. -/
theorem loadOutsideMemoryHalts : Obligations.LoadOutsideMemoryHalts := fun rd rs1 imm s hc hlt =>
  ⟨_, execLw_invalid rd rs1 imm s ((validAddress_eq_false_iff_unsigned hc _).mpr hlt),
    raisedWith_raise s _ ctrlBits_lw, halted_raise _ (by decide)⟩

/-- Settles O28: a valid store is one `writeWord` and `advance` under `sw`'s flags. -/
theorem storeWordCompletes : Obligations.StoreWordCompletes := fun rs2 rs1 imm s hc hm hle =>
  ⟨rfl, _, execSw_valid rs2 rs1 imm s ((validAddress_iff_unsigned hc _).mpr hle),
    fun j => read_writeWord_inside s.dmem _ j _ hm, fun b => read_writeWord_outside s.dmem _ b _ hm,
    fun _ => rfl, rfl, ctrlBits_sw, ⟨rfl, rfl⟩, rfl⟩

/-- Settles O29: an invalid store is a raise under `sw`'s flags. -/
theorem storeOutsideMemoryHalts : Obligations.StoreOutsideMemoryHalts := fun rs2 rs1 imm s hc hlt =>
  ⟨_, execSw_invalid rs2 rs1 imm s ((validAddress_eq_false_iff_unsigned hc _).mpr hlt),
    raisedWith_raise s _ ctrlBits_sw, halted_raise _ (by decide)⟩

/-- Settles O30: the store keeps the registers, so the load's address is the one it had before; the byte
read is then inside the stored word or outside it. -/
theorem loadSeesStoreBytewise : Obligations.LoadSeesStoreBytewise := by
  intro rs2 rs1 rd rs1' imm imm' s hm hrd hstore hload
  obtain ⟨t, ht, hcfg, hregs, hdmem⟩ := execSw_completes rs2 rs1 imm s hstore
  have haddr : effectiveAddress t rs1' imm' = effectiveAddress s rs1' imm' := by
    rw [effectiveAddress, hregs, effectiveAddress]
  rw [← haddr, ← hcfg] at hload
  refine ⟨t, _, ht, execLw_valid rd rs1' imm' t hload, fun j hj => ?_⟩
  rw [readReg_writeBack_same _ _ _ hrd, extractLsb'_readWord _ _ _ hj, haddr, hdmem]
  generalize (effectiveAddress s rs1 imm).toNat = a
  generalize (effectiveAddress s rs1' imm').toNat = b
  split
  case isTrue hin =>
    have hb : b + j = a + (b + j - a) := by omega
    rw [hb, read_writeWord_inside _ _ _ _ hm (by omega), ← hb]
  case isFalse hout => exact read_writeWord_outside _ _ _ _ hm (by omega)

/-- Settles O32: an instruction other than `sw` keeps data memory (`exec_keeps_dmem`), so a step that
changes it ran one; the independence is `exec_dmem_comm`. -/
theorem onlyLoadStoreTouchMemory : Obligations.OnlyLoadStoreTouchMemory := by
  refine ⟨fun s t h hne => ?_, exec_dmem_comm⟩
  rcases step_next_cases h with ⟨_, rfl⟩ | ⟨_, rfl, _⟩ | ⟨_, _, w, i, hw, hd, hex⟩
  · exact absurd rfl hne
  · exact absurd rfl hne
  · by_contra hno
    exact hne (exec_keeps_dmem i s t (fun rs2 rs1 imm hi => hno ⟨w, rs2, rs1, imm, hw, hi ▸ hd⟩) hex)

/-- Settles O33: of the steps only an instruction changes a register, and only its destination. -/
theorem onlyDestinationRegisterChanges : Obligations.OnlyDestinationRegisterChanges := by
  intro s t r h hne
  rcases step_next_cases h with ⟨_, rfl⟩ | ⟨_, rfl, _⟩ | ⟨_, _, w, i, hw, hd, hex⟩
  · exact absurd rfl hne
  · exact absurd rfl hne
  · exact ⟨w, i, hw, hd, by_contra fun hr => hne (readReg_exec hex r hr)⟩

/-- Settles O13: `readReg_writeReg`, whose guard on index 0 a written index 1 to 31 satisfies. -/
theorem registerWriteSeen : Obligations.RegisterWriteSeen := by
  refine ⟨fun s i j v hi => ?_, writeReg_zero⟩
  rw [readReg_writeReg]
  by_cases hj : j = i <;> simp [hj, hi]

end Sys2Proof.Machine
end

section
/-! Branches and the program counter (spec 43_branch_pc.md): `resolveBranch` in its two ends, alignment of
a target as a bit of the word, and runs that branch to themselves. -/

namespace Sys2Proof.Machine

@[simp] theorem branchTarget_setCtrl (s : State) (f : ControlSignals) (offset : Word) :
    branchTarget (setCtrl s f) offset = branchTarget s offset := rfl

/-! ## The two branches as one operation (R133, R134) -/

theorem exec_beq (rs1 rs2 : RegIdx) (offset : Word) (s : State) :
    exec (.beq rs1 rs2 offset) s = .next (resolveBranch (setCtrl s (controlFlags .beq))
      (decide (readReg s rs1 = readReg s rs2)) offset) := by
  have htaken : (branchDiff s rs1 rs2 == 0#32) = decide (readReg s rs1 = readReg s rs2) := by
    rw [Bool.eq_iff_iff, beq_iff_eq, branchDiff_eq_zero, decide_eq_true_iff]
  rw [← htaken]
  rfl

theorem exec_bne (rs1 rs2 : RegIdx) (offset : Word) (s : State) :
    exec (.bne rs1 rs2 offset) s = .next (resolveBranch (setCtrl s (controlFlags .bne))
      (decide (readReg s rs1 ≠ readReg s rs2)) offset) := by
  have htaken : (branchDiff s rs1 rs2 != 0#32) = decide (readReg s rs1 ≠ readReg s rs2) := by
    rw [Bool.eq_iff_iff, bne_iff_ne, ne_eq, branchDiff_eq_zero, decide_eq_true_iff]
  rw [← htaken]
  rfl

/-- The only target a branch tests is that of a taken one (R135). -/
theorem resolveBranch_branched (s : State) {k : Kind} (taken : Prop) [Decidable taken] (offset : Word)
    (hflags : ctrlBits (controlFlags k) = 0b001000001#9)
    (h : taken → aligned (branchTarget s offset) = true) :
    Branched (if taken then s.pc + offset else s.pc + 4#32) s
      (resolveBranch (setCtrl s (controlFlags k)) (decide taken) offset) := by
  by_cases ht : taken
  · simp only [resolveBranch, ht, branchTarget_setCtrl, h ht, decide_true, if_true]
    exact ⟨rfl, hflags, fun _ => rfl, fun _ => rfl, ⟨rfl, rfl⟩, rfl⟩
  · simp only [resolveBranch, ht, decide_false, if_false, Bool.false_eq_true]
    exact ⟨rfl, hflags, fun _ => rfl, fun _ => rfl, ⟨rfl, rfl⟩, rfl⟩

theorem resolveBranch_misaligned (s : State) (f : ControlSignals) (offset : Word)
    (h : aligned (branchTarget s offset) = false) :
    resolveBranch (setCtrl s f) true offset = raise (setCtrl s f) .misalignedBranchTarget := by
  simp [resolveBranch, h]

/-- A taken branch, of either kind (R89). -/
def TakenBranch (s : State) (offset : Word) (i : Instr) : Prop :=
  ∃ rs1 rs2, (i = .beq rs1 rs2 offset ∧ readReg s rs1 = readReg s rs2) ∨
    (i = .bne rs1 rs2 offset ∧ readReg s rs1 ≠ readReg s rs2)

theorem exec_takenBranch {s : State} {offset : Word} {i : Instr} (h : TakenBranch s offset i) :
    exec i s = .next (resolveBranch (setCtrl s (controlFlags (kindOf i))) true offset) := by
  obtain ⟨rs1, rs2, ⟨rfl, heq⟩ | ⟨rfl, hne⟩⟩ := h
  · rw [exec_beq, decide_eq_true heq]; rfl
  · rw [exec_bne, decide_eq_true hne]; rfl

/-- A taken branch to an aligned target changes the flags and the `pc` alone. -/
theorem exec_takenBranch_aligned {s : State} {offset : Word} {i : Instr} (h : TakenBranch s offset i)
    (ha : aligned (s.pc + offset) = true) :
    exec i s = .next (setPc (setCtrl s (controlFlags (kindOf i))) (s.pc + offset)) := by
  rw [exec_takenBranch h, resolveBranch, if_pos rfl, branchTarget_setCtrl, branchTarget, if_pos ha]

/-! ## Alignment of a target (R135) -/

theorem aligned_iff_bits (v : Word) :
    aligned v = true ↔ v.getLsbD 0 = false ∧ v.getLsbD 1 = false := by
  rw [aligned, beq_iff_eq]
  constructor
  · intro h
    have hbit (i : Nat) (hi : i < 2) : v.getLsbD i = false := by
      simpa [hi] using congrArg (·.getLsbD i) h
    exact ⟨hbit 0 (by decide), hbit 1 (by decide)⟩
  · rintro ⟨h0, h1⟩
    apply BitVec.eq_of_getLsbD_eq
    intro i hi
    interval_cases i <;> simpa using ‹_›

/-- Bit 8 of a word is bit 1 of its B-immediate, whose bit 0 is 0 (R68). -/
theorem aligned_immBOf (w : Word) : aligned (immBOf w) = !w.getLsbD 8 := by
  rw [Bool.eq_iff_iff, aligned_iff_bits, getLsbD_immBOf w 0 (by decide), getLsbD_immBOf w 1 (by decide)]
  simp

/-! ## Fixed points of `step` -/

/-- A run from a state that steps to itself stays there. -/
theorem run_of_step_self {s : State} (h : step s = .next s) (k : Nat) :
    Host.Core.run Sys2Proof.core k s = .next s := by
  induction k with
  | zero => rfl
  | succ k ih => rw [run_next s s h, ih]

theorem step_of_halted {s : State} (h : halted s = true) : step s = .next s := by
  simp [step, cycle, h]

theorem step_of_decode {s : State} {w : Word} {i : Instr} (hready : halted s = false)
    (hpc : aligned s.pc = true) (hw : fetch s = some w) (hd : decode w = .ok i) :
    step s = exec i s := by
  simp [step, cycle, hready, hpc, hw, runWord, hd]

/-- A taken branch with offset 0 changes the flags alone. -/
theorem step_selfBranch {s : State} {w : Word} {i : Instr} (hready : halted s = false)
    (hpc : aligned s.pc = true) (hw : fetch s = some w) (hd : decode w = .ok i)
    (h : TakenBranch s 0#32 i) : step s = .next (setCtrl s (controlFlags (kindOf i))) := by
  have hzero : s.pc + 0#32 = s.pc := BitVec.add_zero s.pc
  rw [step_of_decode hready hpc hw hd, exec_takenBranch_aligned h (hzero.symm ▸ hpc), hzero]
  rfl

/-! ## The statements -/

/-- Settles O34: `exec_beq`, and the completing end of `resolveBranch`. -/
theorem beqCompletes : Obligations.BeqCompletes := fun rs1 rs2 offset s h =>
  ⟨_, exec_beq rs1 rs2 offset s,
    resolveBranch_branched s _ offset ctrlBits_beq fun ht => (aligned_iff _).mpr (h ht)⟩

/-- Settles O35: `exec_bne`, and the completing end of `resolveBranch`. -/
theorem bneCompletes : Obligations.BneCompletes := fun rs1 rs2 offset s h =>
  ⟨_, exec_bne rs1 rs2 offset s,
    resolveBranch_branched s _ offset ctrlBits_bne fun ht => (aligned_iff _).mpr (h ht)⟩

/-- Settles O36: the raising end of `resolveBranch`. -/
theorem misalignedTakenBranchHalts : Obligations.MisalignedTakenBranchHalts := by
  intro rs1 rs2 offset s hne
  have ha : aligned (branchTarget s offset) = false := by
    rwa [← Bool.not_eq_true, aligned_iff]
  refine ⟨fun heq => ⟨_, exec_beq rs1 rs2 offset s, ?_⟩, fun hne => ⟨_, exec_bne rs1 rs2 offset s, ?_⟩⟩
  · rw [decide_eq_true heq, resolveBranch_misaligned s _ offset ha]
    exact ⟨raisedWith_raise s _ ctrlBits_beq, halted_raise _ (by decide)⟩
  · rw [decide_eq_true hne, resolveBranch_misaligned s _ offset ha]
    exact ⟨raisedWith_raise s _ ctrlBits_bne, halted_raise _ (by decide)⟩

/-- Settles O37: the offset is the word's B-immediate, and an aligned `pc` leaves its alignment to it. -/
theorem misalignmentIsBitEight : Obligations.MisalignmentIsBitEight := by
  intro w s rs1 rs2 offset hpc h
  have himm : offset = immBOf w := by
    rcases h with h | h
    · exact decode_holdsImmediateOf w _ h
    · exact decode_holdsImmediateOf w _ h
  rw [branchTarget, aligned_add _ _ hpc, himm, aligned_immBOf]
  simp

/-- Settles O38: a rejection and a fault are raises, which keep the `pc`; an instruction that completes
commits its own next `pc` (`exec_outcome`). -/
theorem nextPcOfStep : Obligations.NextPcOfStep := by
  intro s t hready h
  obtain ⟨hnone, _⟩ := (ready_iff s).mp hready
  rcases step_next_cases h with ⟨hh, _⟩ | ⟨_, rfl, _⟩ | ⟨_, _, w, i, hw, hd, hex⟩
  · cases hready.symm.trans hh
  · exact ⟨fun _ => rfl, nofun⟩
  · obtain ⟨t', ht', _, ⟨hcause, hpc⟩ | ⟨rfl, _⟩ | ⟨rfl, _⟩⟩ := exec_outcome i s <;>
      cases hex.symm.trans ht'
    · exact ⟨fun hne => absurd (hcause.trans hnone) hne, fun _ => ⟨w, i, hw, hd, hpc⟩⟩
    · exact ⟨fun _ => rfl, nofun⟩
    · exact ⟨fun _ => rfl, nofun⟩

/-- Settles O39: the taken branch commits its target, which the end test then meets; a sum below 0 wraps
by 2^32, and an offset of 13 bits takes it no further down than 4096. -/
theorem targetOutsideProgramEndsRun : Obligations.TargetOutsideProgramEndsRun := by
  refine ⟨fun i rs1 rs2 offset s hnone hi ha hend => ?_, fun offset s hfits hneg => ?_⟩
  · refine ⟨_, exec_takenBranch_aligned ⟨rs1, rs2, hi⟩ ha, rfl, hnone, (halted_iff _).mpr (.inr ?_)⟩
    simp only [setPc_imem, setPc_pc, setCtrl_imem]
    omega
  · obtain ⟨hmin, _, _⟩ := hfits
    have hpc := s.pc.isLt
    rw [BitVec.toInt_eq_toNat_cond] at hmin hneg
    rw [BitVec.toNat_add]
    split at hmin <;> exact ⟨by omega, by omega⟩

/-- Settles O40: the first step changes the flags alone, so the second one finds the same taken branch and
changes nothing. -/
theorem selfBranchNeverEnds : Obligations.SelfBranchNeverEnds := by
  intro s w i rs1 rs2 hready hpc hw hd hi k
  have hself : step (setCtrl s (controlFlags (kindOf i))) = .next (setCtrl s (controlFlags (kindOf i))) :=
    step_selfBranch (s := setCtrl s (controlFlags (kindOf i))) hready hpc hw hd ⟨rs1, rs2, hi⟩
  refine ⟨?_, hready⟩
  rw [run_next _ _ (step_selfBranch hready hpc hw hd ⟨rs1, rs2, hi⟩), run_of_step_self hself]

end Sys2Proof.Machine
end

section
/-! The engine's invariant (spec 10_state.md section 8): kept by an instruction, by a step, by the host's
events, and so met by every state the host can reach. -/

namespace Sys2Proof.Machine

/-! ## What an instruction keeps -/

/-- Only a branch sets the `pc` to more than `pc + 4`, and it commits no misaligned target (R135). -/
theorem exec_keeps_aligned {i : Instr} {s t : State} (h : exec i s = .next t)
    (hs : aligned s.pc = true) : aligned t.pc = true := by
  rcases exec_cases h with ⟨k, rd, v, _, rfl⟩ | ⟨_, _, _, _, _, rfl⟩ | ⟨f, taken, offset, rfl⟩ |
    ⟨f, c, rfl⟩
  · obtain ⟨_, hpc, _⟩ := writeBack_spec s k rd v
    rw [hpc]
    exact aligned_advance s hs
  · exact aligned_advance s hs
  · rcases resolveBranch_cases (setCtrl s f) taken offset with ⟨_, hr⟩ | ⟨_, ha, hr⟩ | ⟨_, _, hr⟩ <;>
      rw [hr]
    · exact aligned_advance s hs
    · exact ha
    · exact hs
  · exact hs

/-- A store is checked before it writes, so it writes inside the capacity (R47); nothing else writes. -/
theorem exec_keeps_memory {i : Instr} {s t : State} (h : exec i s = .next t)
    (hwf : Memory.wf s.dmem = true) (hin : Memory.within s.cfg.dmemBytes s.dmem = true) :
    Memory.wf t.dmem = true ∧ Memory.within s.cfg.dmemBytes t.dmem = true := by
  rcases exec_cases h with ⟨k, rd, v, _, rfl⟩ | ⟨_, _, _, _, hv, rfl⟩ | ⟨f, taken, offset, rfl⟩ |
    ⟨f, c, rfl⟩
  · obtain ⟨_, _, _, hdmem, _⟩ := writeBack_spec s k rd v
    rw [hdmem]
    exact ⟨hwf, hin⟩
  · exact ⟨writeWord_wf _ _ _ hwf, writeWord_within _ _ _ _ (validAddress_within _ _ hv) hin⟩
  · obtain ⟨_, hdmem, _⟩ := resolveBranch_frame (setCtrl s f) taken offset
    rw [hdmem]
    exact ⟨hwf, hin⟩
  · exact ⟨hwf, hin⟩

/-- A cause an instruction latches is explained by the word it was decoded from (R36 (5)). -/
theorem exec_causeExplained {i : Instr} {s t : State} {w : Word} (h : exec i s = .next t)
    (hnone : s.haltCause = .none) (hw : fetch s = some w) (hd : decode w = .ok i) :
    CauseExplained t := by
  obtain ⟨t', ht', _, ⟨hcause, _⟩ | ⟨rfl, r, rs1, imm, hi, hv⟩ | ⟨rfl, rs1, rs2, offset, hi, ha⟩⟩ :=
    exec_outcome i s <;> cases h.symm.trans ht'
  · simp [CauseExplained, hcause, hnone]
  · exact ⟨w, r, rs1, imm, hw, hi.elim (fun hi => .inl (hi ▸ hd)) (fun hi => .inr (hi ▸ hd)), hv⟩
  · exact ⟨w, rs1, rs2, offset, hw,
      hi.imp (fun ⟨hi, hz⟩ => ⟨hi ▸ hd, hz⟩) (fun ⟨hi, hz⟩ => ⟨hi ▸ hd, hz⟩), ha⟩

/-! ## What a step and the host's events keep -/

theorem StateInv.step {s t : State} (hinv : StateInv s) (h : step s = .next t) : StateInv t := by
  rcases step_next_cases h with ⟨_, rfl⟩ | ⟨_, rfl, w, e, hw, hd⟩ | ⟨hready, ha, w, i, hw, hd, hex⟩
  · exact hinv
  · exact ⟨hinv.cfgValid, hinv.regZero, hinv.pcAligned, hinv.programFits, hinv.memoryCanonical,
      hinv.memoryWithin, w, e, hw, hd⟩
  · obtain ⟨hnone, _⟩ := (ready_iff s).mp hready
    obtain ⟨himem, hcfg, hzero⟩ := exec_program i s t hex
    obtain ⟨hwf, hin⟩ := exec_keeps_memory hex hinv.memoryCanonical hinv.memoryWithin
    exact ⟨hcfg ▸ hinv.cfgValid, hzero.trans hinv.regZero, exec_keeps_aligned hex ha,
      himem ▸ hcfg ▸ hinv.programFits, hwf, hcfg ▸ hin, exec_causeExplained hex hnone hw hd⟩

theorem StateInv.powerOn {c : Config} (hc : c.Valid) : StateInv (State.powerOn c) :=
  ⟨hc, rfl, aligned_zero, Nat.zero_le _, rfl, rfl, trivial⟩

theorem StateInv.load {s : State} (hinv : StateInv s) {ws : List Word}
    (hfits : ws.length ≤ s.cfg.imemWordsMax) : StateInv (s.load ws) := by
  have hin : Memory.within s.cfg.dmemBytes (s.load ws).dmem = true := by
    rw [load_dmem]
    split
    · rfl
    · exact hinv.memoryWithin
  exact ⟨hinv.cfgValid, rfl, aligned_zero, hfits, load_wf s ws hinv.memoryCanonical, hin, trivial⟩

theorem StateInv.hostEvent {s t : State} (hinv : StateInv s) {e : HostEvent}
    (h : hostEvent e s = .next t) : StateInv t := by
  cases e with
  | powerOn => cases h; exact .powerOn hinv.cfgValid
  | load ws =>
    rw [Machine.hostEvent] at h
    split at h
    case isTrue hfits => cases h; exact hinv.load hfits
    case isFalse => cases h
  | step => exact hinv.step h

theorem StateInv.of_reachable {s : State} (h : Reachable s) : StateInv s := by
  induction h with
  | powerOn c hc => exact .powerOn hc
  | event e _ h ih => exact ih.hostEvent h

/-- A step goes on, or it is the fetch the data model excludes (log 5); it never refuses. -/
theorem step_next_or_fault (s : State) :
    (∃ t, step s = .next t) ∨ (aligned s.pc = false ∧ step s = .fault .unalignedPc) := by
  rcases step_cases s with ⟨_, hs⟩ | ⟨_, ha, hs⟩ | ⟨_, _, _, _, _, _, hs⟩ | ⟨_, i, _, _, _, _, hs⟩
  · exact .inl ⟨_, hs⟩
  · exact .inr ⟨ha, hs⟩
  · exact .inl ⟨_, hs⟩
  · obtain ⟨t, ht, _⟩ := exec_outcome i s
    exact .inl ⟨t, hs.trans ht⟩

theorem exists_step_next {s : State} (h : aligned s.pc = true) : ∃ t, step s = .next t :=
  (step_next_or_fault s).resolve_right fun ⟨ha, _⟩ => ne_true_of_eq_false ha h

/-! ## The statements -/

/-- Settles O48: `StateInv.step`, over the ways a step can go on. -/
theorem stepKeepsInvariants : Obligations.StepKeepsInvariants := fun _ _ hinv h => hinv.step h

/-- Settles O49: `StateInv.powerOn`; reset is power-on with the default configuration. -/
theorem powerOnMeetsInvariants : Obligations.PowerOnMeetsInvariants :=
  ⟨.powerOn (by decide), fun _ hc => .powerOn hc⟩

/-- Settles O51: `StateInv.load` within the bound, the event's own refusal beyond it. -/
theorem loadKeepsInvariants : Obligations.LoadKeepsInvariants := fun _ _ hinv =>
  ⟨fun hfits => ⟨if_pos hfits, hinv.load hfits⟩, fun hlong => if_neg (Nat.not_le_of_lt hlong)⟩

/-- Settles O50: the invariant by induction along the events, progress by its aligned `pc`. -/
theorem reachableStatesMeetInvariants : Obligations.ReachableStatesMeetInvariants := fun _ hs =>
  have hinv := StateInv.of_reachable hs
  ⟨hinv, exists_step_next hinv.pcAligned, step_of_halted⟩

end Sys2Proof.Machine
end

section
/-! The second statement of the cycle (spec 40_decode_control.md section 4): the six blocks under the flags
of each kind do what the instruction does. -/

namespace Sys2Proof.Machine

/-! ## The datapath's signals (R88, R89) -/

/-- The ALU block's output for a kind. -/
def aluResult (k : Kind) (f : Fields) (s : State) : Word :=
  alu (aluControl k (controlFlags k)) (readReg s f.rs1)
    (aluOperandB k (controlFlags k) f (readReg s f.rs2))

/-- A load's and a store's ALU result is its effective address (R89). -/
theorem aluResult_lw (f : Fields) (s : State) :
    aluResult .lw f s = effectiveAddress s f.rs1 f.immI := rfl

theorem aluResult_sw (f : Fields) (s : State) :
    aluResult .sw f s = effectiveAddress s f.rs1 f.immS := rfl

/-- The load/store unit's answer for a kind. -/
def memoryAnswer (k : Kind) (f : Fields) (s : State) : Except HaltCause (Word × Memory) :=
  loadStoreUnit s (controlFlags k) (aluResult k f s) (readReg s f.rs2)

/-- The branch decision for a kind. -/
def takenSignal (k : Kind) (f : Fields) (s : State) : Bool :=
  branchTaken (controlFlags k) f.funct3 (aluResult k f s == 0#32)

section Commit
variable {k : Kind} {f : Fields} {s : State}

/-- No block signals a cause: everything is committed. -/
theorem datapath_commit {memData nextPc : Word} {m : Memory} (hmem : memoryAnswer k f s = .ok (memData, m))
    (hpc : pcUnit s f.immB (takenSignal k f s) = .ok nextPc) :
    datapath k (controlFlags k) f s =
      setPc { registerFileWrite (setCtrl s (controlFlags k)) (controlFlags k) f.rd memData
        (aluResult k f s) with dmem := m } nextPc := by
  simp only [memoryAnswer, takenSignal, aluResult] at hmem hpc
  simp only [datapath, registerFileRead, aluResult, hmem, hpc]

theorem datapath_raise_of_memory {c : HaltCause} (hmem : memoryAnswer k f s = .error c) :
    datapath k (controlFlags k) f s = raise (setCtrl s (controlFlags k)) c := by
  simp only [memoryAnswer, aluResult] at hmem
  simp only [datapath, registerFileRead, hmem]

theorem datapath_raise_of_pc {c : HaltCause} {p : Word × Memory} (hmem : memoryAnswer k f s = .ok p)
    (hpc : pcUnit s f.immB (takenSignal k f s) = .error c) :
    datapath k (controlFlags k) f s = raise (setCtrl s (controlFlags k)) c := by
  simp only [memoryAnswer, takenSignal, aluResult] at hmem hpc
  simp only [datapath, registerFileRead, hmem, hpc]

end Commit

/-! ## The blocks against the shared ends of the meanings -/

/-- The commit of a kind that writes a register and leaves data memory. -/
theorem writeBack_eq_commit (s : State) (k : Kind) (rd : RegIdx) (v : Word) :
    writeBack s k rd v =
      setPc { writeReg (setCtrl s (controlFlags k)) rd v with dmem := s.dmem } (s.pc + 4#32) := by
  unfold writeBack writeReg
  split <;> rfl

/-- The pc unit and `resolveBranch` agree. -/
theorem resolveBranch_pcUnit (s : State) (flags : ControlSignals) (taken : Bool) (offset : Word) :
    (∃ nextPc, pcUnit s offset taken = .ok nextPc ∧
      resolveBranch (setCtrl s flags) taken offset = setPc (setCtrl s flags) nextPc) ∨
    (pcUnit s offset taken = .error .misalignedBranchTarget ∧
      resolveBranch (setCtrl s flags) taken offset =
        raise (setCtrl s flags) .misalignedBranchTarget) := by
  rcases resolveBranch_cases (setCtrl s flags) taken offset with
    ⟨rfl, hr⟩ | ⟨rfl, ha, hr⟩ | ⟨rfl, ha, hr⟩
  · exact .inl ⟨_, rfl, hr⟩
  · exact .inl ⟨_, (if_pos rfl).trans (if_pos ha), hr⟩
  · exact .inr ⟨(if_pos rfl).trans (if_neg (ne_true_of_eq_false ha)), hr⟩

/-- A kind that neither writes a register nor accesses memory is left to the pc unit. -/
theorem datapath_branch {k : Kind} {f : Fields} {s : State} (hmem : memoryAnswer k f s = .ok (0#32, s.dmem))
    (hwrite : (controlFlags k).regWrite = false) :
    datapath k (controlFlags k) f s =
      resolveBranch (setCtrl s (controlFlags k)) (takenSignal k f s) f.immB := by
  rcases resolveBranch_pcUnit s (controlFlags k) (takenSignal k f s) f.immB with
    ⟨nextPc, hpc, hr⟩ | ⟨hpc, hr⟩
  · rw [hr, datapath_commit hmem hpc, registerFileWrite, hwrite]
    rfl
  · rw [hr, datapath_raise_of_pc hmem hpc]

/-- The datapath commits what the kind's instruction does, when `funct3[0]` tells the branches apart. -/
theorem exec_assemble (k : Kind) (f : Fields) (s : State) (hbeq : k = .beq → f.funct3.getLsbD 0 = false)
    (hbne : k = .bne → f.funct3.getLsbD 0 = true) :
    exec (assemble k f) s = .next (datapath k (controlFlags k) f s) := by
  cases k with
  | rtype op =>
    rw [datapath_commit (k := .rtype op) rfl rfl]
    cases op <;> exact congrArg _ (writeBack_eq_commit s _ f.rd _)
  | addi =>
    rw [datapath_commit (k := .addi) rfl rfl]
    exact congrArg _ (writeBack_eq_commit s _ f.rd _)
  | lw =>
    rcases memRead_cases s (effectiveAddress s f.rs1 f.immI) with ⟨hv, hread⟩ | ⟨hv, hread⟩
    · have hmem : memoryAnswer .lw f s =
          .ok (readWord s.dmem (effectiveAddress s f.rs1 f.immI).toNat, s.dmem) := by
        simp [memoryAnswer, loadStoreUnit, controlFlags, aluResult_lw, hread]
      rw [datapath_commit hmem rfl, assemble, execLw_valid _ _ _ s hv]
      exact congrArg _ (writeBack_eq_commit s _ f.rd _)
    · have hmem : memoryAnswer .lw f s = .error .invalidMemoryAddress := by
        simp [memoryAnswer, loadStoreUnit, controlFlags, aluResult_lw, hread]
      rw [datapath_raise_of_memory hmem, assemble, execLw_invalid _ _ _ s hv]
  | sw =>
    rcases memWrite_cases s (effectiveAddress s f.rs1 f.immS) (readReg s f.rs2) with
      ⟨hv, hwrite⟩ | ⟨hv, hwrite⟩
    · have hmem : memoryAnswer .sw f s =
          .ok (0#32, writeWord s.dmem (effectiveAddress s f.rs1 f.immS).toNat (readReg s f.rs2)) := by
        simp [memoryAnswer, loadStoreUnit, controlFlags, aluResult_sw, hwrite]
      rw [datapath_commit hmem rfl, assemble, execSw_valid _ _ _ s hv]
      rfl
    · have hmem : memoryAnswer .sw f s = .error .invalidMemoryAddress := by
        simp [memoryAnswer, loadStoreUnit, controlFlags, aluResult_sw, hwrite]
      rw [datapath_raise_of_memory hmem, assemble, execSw_invalid _ _ _ s hv]
  | beq =>
    have htaken : takenSignal .beq f s = (branchDiff s f.rs1 f.rs2 == 0#32) := by
      rw [takenSignal, branchTaken, hbeq rfl]
      rfl
    rw [datapath_branch (k := .beq) rfl rfl, htaken]
    rfl
  | bne =>
    have htaken : takenSignal .bne f s = (branchDiff s f.rs1 f.rs2 != 0#32) := by
      rw [takenSignal, branchTaken, hbne rfl]
      rfl
    rw [datapath_branch (k := .bne) rfl rfl, htaken]
    rfl

/-- `funct3[0]` tells beq and bne apart (R70). -/
theorem funct3_bit_of_classify {op : BitVec 7} {f3 : BitVec 3} {f7 : BitVec 7} {k : Kind}
    (h : classify op f3 f7 = .ok k) :
    (k = .beq → f3.getLsbD 0 = false) ∧ (k = .bne → f3.getLsbD 0 = true) := by
  rcases classify_ok _ _ _ _ h with
    ⟨_, ⟨rfl, _, rfl⟩ | ⟨rfl, _, rfl⟩ | ⟨rfl, _, rfl⟩ | ⟨rfl, _, rfl⟩⟩ |
    ⟨_, rfl, rfl⟩ | ⟨_, rfl, rfl⟩ | ⟨_, rfl, rfl⟩ | ⟨_, rfl, rfl⟩ | ⟨_, rfl, rfl⟩ <;> decide

/-! ## The statement -/

/-- Settles O46: over the ways `step` can answer; the control unit rejects where the decoder does, and an
accepted word's datapath is `exec_assemble`. -/
theorem datapathEqualsStep : Obligations.DatapathEqualsStep := by
  intro s
  rcases step_cases s with ⟨hh, hs⟩ | ⟨hh, ha, hs⟩ | ⟨w, e, hh, ha, hw, hd, hs⟩ |
    ⟨w, i, hh, ha, hw, hd, hs⟩ <;> rw [hs]
  · simp [datapathCycle, hh]
  · simp [datapathCycle, hh, ha]
  · have hunit : controlUnit (decodeFields w).opcode (decodeFields w).funct3 (decodeFields w).funct7
        = .error e := (controlUnit_error_iff _ _ _ e).mpr ((decode_error_iff w e).mp hd)
    simp [datapathCycle, hh, ha, hw, hunit]
  · obtain ⟨k, hk, rfl⟩ := decode_ok w i hd
    obtain ⟨hbeq, hbne⟩ := funct3_bit_of_classify hk
    have hunit : controlUnit (decodeFields w).opcode (decodeFields w).funct3 (decodeFields w).funct7
        = .ok (k, controlFlags k) := (controlUnit_ok_iff _ _ _ k _).mpr ⟨rfl, hk⟩
    rw [exec_assemble k (decodeFields w) s hbeq hbne]
    simp [datapathCycle, hh, ha, hw, hunit]

end Sys2Proof.Machine
end

section
/-! The engine from outside (spec 44_cycle_engine.md, 60_exceptions.md, 70_reset_and_hazards.md): the
outcomes of a step and their reports, runs and how they end, and the states after reset and load. -/

namespace Sys2Proof.Machine

/-! ## Flags and the snapshot (R30, R85) -/

/-- No instruction reads the snapshot: it is overwritten before anything else. -/
theorem exec_setCtrl (i : Instr) (s : State) (c : ControlSignals) : exec i (setCtrl s c) = exec i s := by
  cases i <;> rfl

/-! ## Causes -/

/-- Only the decoder's rejection raises `UnsupportedInstruction` (R162). -/
theorem exec_haltCause_ne_unsupported {i : Instr} {s t : State} (h : exec i s = .next t)
    (hnone : s.haltCause = .none) : t.haltCause ≠ .unsupportedInstruction := by
  obtain ⟨t', ht', _, ⟨hcause, _⟩ | ⟨rfl, _⟩ | ⟨rfl, _⟩⟩ := exec_outcome i s <;>
    cases h.symm.trans ht'
  · rw [hcause, hnone]; decide
  · nofun
  · nofun

/-- For an aligned `pc` the end test of R141 in bytes. -/
theorem length_le_div_iff {s : State} (h : aligned s.pc = true) :
    s.imem.length ≤ s.pc.toNat / 4 ↔ 4 * s.imem.length ≤ s.pc.toNat := by
  rw [aligned_iff] at h
  omega

/-! ## Reports (R155) -/

theorem reportOf_of_no_cause {t : State} (h : t.haltCause = .none) : reportOf t = none := by
  cases hw : fetch t <;> simp [reportOf, reportInfo, hw, h]

/-- A step that leaves a cause is reported with the word fetched, which the program still holds. -/
theorem reportOf_of_info {t : State} {w info : Word} (hw : fetch t = some w)
    (hinfo : reportInfo t w = some info) : reportOf t = some ⟨t.haltCause, t.pc, w, info⟩ := by
  simp [reportOf, hw, hinfo]

theorem stepReport_of_ready {s t : State} (hready : halted s = false) (h : step s = .next t) :
    stepReport s = reportOf t := by
  simp [stepReport, hready, h]

/-! ## The statements -/

/-- Settles O11: every instruction sets its kind's flags (`exec_outcome`), whose strings are the table. -/
theorem controlFlagTable : Obligations.ControlFlagTable := by
  intro i s
  obtain ⟨t, ht, hctrl, _⟩ := exec_outcome i s
  refine ⟨t, ht, ?_⟩
  rw [hctrl]
  cases i <;> simp [kindOf]

/-- Settles O41: the decoded case of the cycle. -/
theorem stepRunsDecodedInstruction : Obligations.StepRunsDecodedInstruction :=
  fun _ _ _ hready hpc hw hd => step_of_decode hready hpc hw hd

/-- Settles O42: the two tests of `halted`, at index 0 after a load. -/
theorem haltedCondition : Obligations.HaltedCondition :=
  ⟨halted_iff, fun _ => length_le_div_iff, fun s => (halted_iff _).mpr (.inr (Nat.zero_le _)),
    fun _ => step_of_halted, fun s w ws => (ready_iff _).mpr ⟨rfl, by simp⟩⟩

/-- Settles O43: a Halted engine steps to itself, so a run of any length stays. -/
theorem haltingMonotone : Obligations.HaltingMonotone := fun _ k h =>
  run_of_step_self (step_of_halted h) k

/-- Settles O44: of the ways a Ready engine steps, the rejection raises this cause and no instruction
does. -/
theorem unsupportedInstructionRaised : Obligations.UnsupportedInstructionRaised := by
  intro s t hready _ h
  obtain ⟨hnone, _⟩ := (ready_iff s).mp hready
  rcases step_next_cases h with ⟨hh, _⟩ | ⟨_, rfl, hrejected⟩ | ⟨_, _, w, i, hw, hd, hex⟩
  · cases hready.symm.trans hh
  · exact ⟨⟨fun _ => hrejected, fun _ => rfl⟩, fun _ => ⟨rfl, halted_raise s (by decide)⟩⟩
  · have hne := exec_haltCause_ne_unsupported hex hnone
    refine ⟨⟨fun hc => absurd hc hne, ?_⟩, fun hc => absurd hc hne⟩
    rintro ⟨w', e, hw', hd'⟩
    cases hw.symm.trans hw'
    cases hd.symm.trans hd'

/-- Settles O45: `exec_outcome` tells an instruction's completion and its two faults apart, the aligned
`pc` rules out the model's own stop. -/
theorem stepOutcomes : Obligations.StepOutcomes := by
  intro s hinv
  obtain ⟨t, h⟩ := exists_step_next hinv.pcAligned
  refine ⟨t, h, ?_⟩
  rcases step_next_cases h with ⟨hh, rfl⟩ | ⟨hready, rfl, hrejected⟩ |
    ⟨hready, _, w, i, hw, hd, hex⟩
  · exact .inl ⟨hh, rfl⟩
  · exact .inr (.inr (.inl ⟨hready, halted_raise s (by decide), rfl, hrejected⟩))
  · obtain ⟨hnone, _⟩ := (ready_iff s).mp hready
    obtain ⟨t', ht', hctrl, ⟨hcause, hpc⟩ | ⟨rfl, r, rs1, imm, hi, hv⟩ |
      ⟨rfl, rs1, rs2, offset, hi, ha⟩⟩ := exec_outcome i s <;> cases hex.symm.trans ht'
    · exact .inr (.inl ⟨hready, hcause.trans hnone, w, i, hw, hd, hex, hctrl, hpc⟩)
    · exact .inr (.inr (.inr ⟨hready, halted_raise _ (by decide), w, i, rs1, imm, hw, hd, hex,
        .inl ⟨rfl, hi.imp (fun hi => ⟨r, hi⟩) (fun hi => ⟨r, hi⟩), hv⟩⟩))
    · rw [Ne, branchDiff_eq_zero] at hi
      exact .inr (.inr (.inr ⟨hready, halted_raise _ (by decide), w, i, rs1, offset, hw, hd, hex,
        .inr ⟨rfl, hi.imp (fun hi => ⟨rs2, hi⟩) (fun hi => ⟨rs2, hi⟩), ha⟩⟩))

/-- Settles O47: neither the cycle's tests nor any instruction reads the snapshot, so the two steps differ
where the snapshot is kept and nowhere else. -/
theorem controlSnapshotIsOutputOnly : Obligations.ControlSnapshotIsOutputOnly := by
  intro s c
  rcases step_cases s with ⟨hh, hs⟩ | ⟨hh, ha, hs⟩ | ⟨w, e, hh, ha, hw, hd, hs⟩ |
    ⟨w, i, hh, ha, hw, hd, hs⟩
  · rw [hs, step_of_halted (s := setCtrl s c) hh]
    rfl
  · have hs' : step (setCtrl s c) = .fault .unalignedPc := by
      simp [step, cycle, show halted (setCtrl s c) = false from hh, ha]
    rw [hs, hs']
  · rw [hs, step_raises_of_decode_error (setCtrl s c) w e hh ha hw hd]
    rfl
  · rw [hs, step_of_decode (s := setCtrl s c) hh ha hw hd, exec_setCtrl]

/-- Settles O54: by induction on the fuel; stopping early at a Halted engine makes no difference, since a
run from there stays. -/
theorem runIsRepeatedStep : Obligations.RunIsRepeatedStep := by
  intro fuel
  induction fuel with
  | zero => exact fun _ => rfl
  | succ fuel ih =>
    intro s
    cases hh : halted s with
    | true => exact (if_pos hh).trans (run_of_step_self (step_of_halted hh) _).symm
    | false =>
      rcases step_next_or_fault s with ⟨t, hs⟩ | ⟨_, hs⟩
      · have hrun : runToCompletion (fuel + 1) s = runToCompletion fuel t := by
          simp [runToCompletion, hh, hs]
        exact (hrun.trans (ih t)).trans (run_next s t hs fuel).symm
      · have hrun : runToCompletion (fuel + 1) s = .fault .unalignedPc := by
          simp [runToCompletion, hh, hs]
        exact hrun.trans (run_fault s _ hs fuel).symm

/-- Settles O55: by the latch; with none the run has ended exactly at the end test in bytes. -/
theorem runEndClassification : Obligations.RunEndClassification := by
  intro s hinv
  rw [halted_iff, length_le_div_iff hinv.pcAligned, SuccessfulEnd, runEnd]
  cases s.haltCause with
  | none => 
    by_cases hend : s.pc.toNat < 4 * s.imem.length <;> simp [hend]
    omega
  | _ => simp

/-- Settles O56: a Halted engine and a completed step report nothing; a rejection reports the word, a fault
the address or target its instruction computed from the registers it leaves as they are. -/
theorem stepReports : Obligations.StepReports := by
  intro s t hinv h
  refine ⟨fun hh => if_pos hh, fun hready hnone => ?_, fun hready hne => ?_⟩
  · rw [stepReport_of_ready hready h, reportOf_of_no_cause hnone]
  rw [stepReport_of_ready hready h]
  obtain ⟨hnone, _⟩ := (ready_iff s).mp hready
  rcases step_next_cases h with ⟨hh, _⟩ | ⟨_, rfl, w, e, hw, hd⟩ | ⟨_, _, w, i, hw, hd, hex⟩
  · cases hready.symm.trans hh
  · exact ⟨w, w, hw, reportOf_of_info hw rfl, fun _ => rfl, nofun, nofun⟩
  · obtain ⟨t', ht', hctrl, ⟨hcause, hpc⟩ | ⟨rfl, r, rs1, imm, hi, hv⟩ |
      ⟨rfl, rs1, rs2, offset, hi, ha⟩⟩ := exec_outcome i s <;> cases hex.symm.trans ht'
    · exact absurd (hcause.trans hnone) hne
    · refine ⟨w, readReg s rs1 + imm, hw, reportOf_of_info hw ?_, nofun, nofun, fun _ => ?_⟩
      · rcases hi with rfl | rfl <;> simp [reportInfo, hd] <;> rfl
      · exact hi.elim (fun hi => .inl ⟨r, rs1, imm, hi ▸ hd, rfl⟩)
          (fun hi => .inr ⟨r, rs1, imm, hi ▸ hd, rfl⟩)
    · exact ⟨w, s.pc + immBOf w, hw, reportOf_of_info hw rfl, nofun, fun _ => rfl, nofun⟩

/-- Settles O52: reset is a closed term. -/
theorem resetState : Obligations.ResetState := by
  refine ⟨rfl, fun r => ?_, rfl, fun _ => rfl, rfl, by decide, rfl, rfl, rfl⟩
  simp [readReg, State.reset]

/-- Settles O53: the fields of a load; Ready is the end test at `pc` 0. -/
theorem programLoadState : Obligations.ProgramLoadState := by
  intro s ws
  refine ⟨rfl, rfl, readReg_load s ws, by rw [load_ctrl]; decide, rfl, rfl, fun h => ?_, fun h a => ?_, ?_⟩
  · simp [h]
  · simp [h, unlistedByte]
  · simp [ready_iff, List.length_pos_iff]

end Sys2Proof.Machine
end

section
/-! The host's boundary (spec 44_cycle_engine.md section 4, 70_reset_and_hazards.md section 1): the display's
memory view, and program lines read and written. -/

namespace Sys2Proof.Machine

/-! ## Binary literals (R184) -/

theorem binaryLiteral_append_digit (digits : List Char) (c : Char) :
    binaryLiteral (digits ++ [c]) = 2 * binaryLiteral digits + (if c = '1' then 1 else 0) := by
  simp [binaryLiteral]

/-- Bit `i` of a literal is its `i`-th digit from the end. -/
theorem testBit_binaryLiteral (digits : List Char) (i : Nat) :
    (binaryLiteral digits).testBit i = (digits.reverse[i]? == some '1') := by
  induction digits using List.reverseRecOn generalizing i with
  | nil => simp [binaryLiteral]
  | append_singleton digits c ih =>
    rw [binaryLiteral_append_digit, List.reverse_append]
    cases i with
    | zero => by_cases hc : c = '1' <;> simp [hc, Nat.testBit_zero]
    | succ i =>
      have hhalf : (2 * binaryLiteral digits + if c = '1' then 1 else 0) / 2 = binaryLiteral digits := by
        split <;> omega
      rw [Nat.testBit_succ, hhalf, ih]
      simp

/-! ## Program lines (R183) -/

theorem isBinaryDigit_iff (c : Char) : isBinaryDigit c = true ↔ c = '0' ∨ c = '1' := by
  simp [isBinaryDigit]

theorem parseLine_eq_some_iff (line : List Char) (w : Word) :
    parseLine line = some w ↔ ((trimLine line).length = 32 ∧ ∀ c ∈ trimLine line, c = '0' ∨ c = '1') ∧
      BitVec.ofNat 32 (binaryLiteral (trimLine line)) = w := by
  simp [parseLine, List.all_eq_true, isBinaryDigit_iff]

/-- The first of 32 digits is bit 31. -/
theorem getLsbD_literal {digits : List Char} (hlen : digits.length = 32) {k : Nat} (hk : k < 32) :
    (BitVec.ofNat 32 (binaryLiteral digits)).getLsbD (31 - k) = (digits[k]? == some '1') := by
  rw [BitVec.getLsbD_ofNat, testBit_binaryLiteral, List.getElem?_reverse (by omega), hlen,
    decide_eq_true (by omega), Bool.true_and]
  congr 2
  omega

/-- Trimming removes no digit, whatever the loader takes for white space (log 15). -/
theorem trimLine_of_digits {line : List Char} (h : ∀ c ∈ line, isBinaryDigit c = true) :
    trimLine line = line := by
  have hkeep (l : List Char) (hl : ∀ c ∈ l, isBinaryDigit c = true) : l.dropWhile isTrimmed = l := by
    cases l with
    | nil => rfl
    | cons c l => simp [isTrimmed, hl c List.mem_cons_self]
  rw [trimLine, hkeep line h, hkeep line.reverse fun c hc => h c (List.mem_reverse.mp hc),
    List.reverse_reverse]

/-! ## A word's digits (R154, R184) -/

theorem length_wordDigits (w : Word) : (wordDigits w).length = 32 := by
  simp [wordDigits]

theorem wordDigits_are_digits (w : Word) (c : Char) (hc : c ∈ wordDigits w) : c = '0' ∨ c = '1' := by
  obtain ⟨k, _, rfl⟩ := List.mem_map.mp hc
  split <;> simp

theorem getElem?_wordDigits (w : Word) {k : Nat} (hk : k < 32) :
    ((wordDigits w)[k]? == some '1') = w.getLsbD (31 - k) := by
  have hdigit : (wordDigits w)[k]? = some (if w.getLsbD (31 - k) then '1' else '0') := by
    simp only [wordDigits, List.getElem?_map, List.getElem?_range hk, Option.map_some]
  rw [hdigit]
  cases w.getLsbD (31 - k) <;> rfl

/-! ## The statements -/

/-- Settles O57: the view runs over the words that lie whole in data memory and drops the zero ones. -/
theorem displayMemoryWords : Obligations.DisplayMemoryWords := by
  intro s a v
  simp only [displayMemory, List.mem_filter, List.mem_map, List.mem_range, Prod.mk.injEq, bne_iff_ne]
  constructor
  · rintro ⟨⟨k, hk, rfl, rfl⟩, hv⟩
    exact ⟨by omega, by omega, rfl, hv⟩
  · rintro ⟨hmod, hin, rfl, hv⟩
    have ha : 4 * (a / 4) = a := by omega
    exact ⟨⟨a / 4, by omega, ha, by rw [ha]⟩, hv⟩

/-- Settles O58: a line parses on the stated condition, to the literal, whose bits are its digits. -/
theorem programLineParsed : Obligations.ProgramLineParsed := by
  refine fun line => ⟨?_, fun w hw k hk => ?_⟩
  · simp only [parseLine_eq_some_iff, exists_and_left, exists_eq', and_true]
  · obtain ⟨⟨hlen, _⟩, rfl⟩ := (parseLine_eq_some_iff line w).mp hw
    exact getLsbD_literal hlen hk

/-- Settles O59: the 32 digits survive trimming, and bit by bit the literal reads what they write. -/
theorem lineOfWordRoundTrip : Obligations.LineOfWordRoundTrip := by
  intro w
  have htrim : trimLine (wordDigits w) = wordDigits w :=
    trimLine_of_digits fun c hc => (isBinaryDigit_iff c).mpr (wordDigits_are_digits w c hc)
  rw [parseLine_eq_some_iff, htrim]
  refine ⟨⟨length_wordDigits w, wordDigits_are_digits w⟩, BitVec.eq_of_getLsbD_eq fun i hi => ?_⟩
  have hbit := (getLsbD_literal (length_wordDigits w) (show 31 - i < 32 by omega)).trans
    (getElem?_wordDigits w (show 31 - i < 32 by omega))
  rwa [show 31 - (31 - i) = i by omega] at hbit

/-- Settles O60: `filterMap` goes line by line, so the words before a line are as many as the well-formed
lines before it. -/
theorem malformedLinesExcluded : Obligations.MalformedLinesExcluded := by
  refine fun before after line => ⟨fun w hw => ?_, fun hnone => ?_⟩
  · have hrank : (before.filter fun l => (parseLine l).isSome).length = (parseProgram before).length := by
      rw [parseProgram, List.length_filterMap_eq_countP, List.countP_eq_length_filter]
    rw [hrank, parseProgram, List.filterMap_append, List.filterMap_cons_some hw, ← parseProgram,
      List.getElem?_append_right le_rfl, Nat.sub_self]
    rfl
  · simp only [parseProgram, List.filterMap_append, List.filterMap_cons_none hnone]

end Sys2Proof.Machine
end
